-- ==== Sys2Proof/Config.lean ====
section
/-! DEFINITION. The parameters of the block: the width W, an argument of every type and function that holds or makes a
register value (00_scope.md R5), the number of register indices (R6), and the one value the spec leaves unconstrained,
the latency of a command (R7). What the commands compute is written on natural numbers, without a width (R10). -/

namespace Sys2Proof

/-- `W` of this hardware, the width in bits of every operand, result and host-visible register (R5). A type written
without its width argument, such as `State`, is at this width. -/
abbrev Config.width : Nat := 32

/-- The widths the model's argument `W` may take: `W >= 8`, since STATUS needs 8 bits (R5; 10_state.md R20). -/
abbrev Config.WidthAllowed (W : Nat) : Prop := 8 ≤ W

/-- `NREG`, the number of register indices of the host interface, of 3 bits each (R6). -/
abbrev Config.nreg : Nat := 8

/-- `LAT(cmd, OPA, OPB, OPC) - 1`: how many clock edges beyond the first a command takes (R7, R136). `LAT` is open in
the spec: finite, at least one cycle, otherwise unconstrained. FREE VALUE: it has no body, so no proof can see a
number in it (log entry 3). Used by the signal-level binding (`Machine/Binding.lean`) only. -/
opaque Config.extraCycles :
    {W : Nat} → BitVec W → BitVec W → BitVec W → BitVec W → Nat

end Sys2Proof
end

