-- ==== Sys2Proof/Word.lean ====
section
/-! DEFINITION. The word: the unit of every transaction and of every register (10_state.md R13, 20_memory.md R42). -/

namespace Sys2Proof

/-- A `W`-bit unsigned value (00_scope.md R5, R9). Bit 0 is the least significant bit. -/
abbrev Word (W : Nat := 32) := BitVec W

/-- The word that holds the natural `n`; exact when `n < 2^W`, which every rule of the spec proves of its results. -/
abbrev Word.ofNat {W : Nat} (n : Nat) : Word W := BitVec.ofNat W n

end Sys2Proof
end

