-- ==== Sys2Proof/Syntax.lean ====
section
/-! DEFINITION. The commands of the block: one constructor per row of spec/opcode_table.json (30_encoding.md R56).
A command carries no immediate, no register specifier and no addressing mode (R55), so no constructor has a field.
ENCRYPT and DECRYPT are other spellings of MODEXP (R64) and have no constructor. -/

namespace Sys2Proof

/-- The five commands, in the order of their opcodes. -/
inductive Instr where
  /-- ISPRIME, opcode 1: is OPA prime? (40_primality.md R69) -/
  | isprime
  /-- GCD, opcode 2: the greatest common divisor of OPA and OPB (41_gcd_modinv.md R76). -/
  | gcd
  /-- MODINV, opcode 3: the inverse of OPA modulo OPB (41_gcd_modinv.md R81). -/
  | modinv
  /-- MODEXP, opcode 4: OPA to the power OPB modulo OPC (42_modexp.md R89). -/
  | modexp
  /-- FACTOR, opcode 5: the least proper divisor of OPA and its cofactor (43_factor.md R99). -/
  | factor
  deriving DecidableEq, Repr

end Sys2Proof
end

