-- ==== Sys2Proof/WellFormed.lean ====
section
/-! DEFINITION. What is well formed before it reaches the block: a command word (30_encoding.md R53, R58), a value a
host may offer (00_scope.md R9, 30_encoding.md R68), an instruction. The block accepts an ill-formed command WORD and
completes it as a fault (R58); an ill-formed VALUE never reaches the block (R68). -/

namespace Sys2Proof

/-- The field RSVD of a command word, bits `W-1:4`, is 0 (R53). -/
def rsvdZero {W : Nat} (w : Word W) : Bool := w.extractLsb' 4 (W - 4) == 0

/-- The field OPCODE of a command word, bits `3:0`, is one of the five assigned numbers (R56). -/
def opcodeAssigned {W : Nat} (w : Word W) : Bool :=
  let op := (w.extractLsb' 0 4).toNat
  decide (1 ≤ op) && decide (op ≤ 5)

/-- A legal command word: both fields as R53 and R56 want them. -/
def commandWordWf {W : Nat} (w : Word W) : Bool := rsvdZero w && opcodeAssigned w

/-- A number of a host statement fits a register: it is not negative and below `2^W` (R9, R68). -/
def valueWf (v : Int) (W : Nat := 32) : Bool := decide (0 ≤ v) && decide (v < 2 ^ W)

/-- Every instruction is well formed: no constructor has a field that could be out of range (R55). -/
def Instr.wf : Instr → Bool
  | .isprime => true
  | .gcd => true
  | .modinv => true
  | .modexp => true
  | .factor => true

end Sys2Proof
end

