-- ==== Sys2Proof/Decode.lean ====
section
/-! DEFINITION. The decoder, total on every word and rejecting by name (30_encoding.md R53, R56 to R59), and after it
the encoder, written from the same opcode map. The block has one command length, one word; it has no byte order
(20_memory.md R41), so a command is read as a word and never as bytes. -/

namespace Sys2Proof

/-- Why a word is no command (30_encoding.md R58). -/
inductive Reject where
  /-- RSVD, bits `W-1:4`, is not 0. -/
  | rsvdNotZero
  /-- RSVD is 0 and OPCODE is 0 or one of 6 to 15. -/
  | opcodeReserved
  deriving DecidableEq, Repr

/-- The decoder's verdict on a word (R57): one of the five commands, or illegal. -/
inductive Decoded where
  | command (i : Instr)
  | illegal (why : Reject)
  deriving DecidableEq, Repr

/-- The field OPCODE of a command word, bits `3:0` (R53). -/
def opcodeField {W : Nat} (w : Word W) : BitVec 4 := w.extractLsb' 0 4

/-- The field RSVD of a command word, bits `W-1:4` (R53). -/
def rsvdField {W : Nat} (w : Word W) : BitVec (W - 4) := w.extractLsb' 4 (W - 4)

/-- Decoding (R56, R57, R58): RSVD first, then the opcode. The verdict depends on the word alone. -/
def decode {W : Nat} (w : Word W) : Decoded :=
  if rsvdField w ≠ 0 then .illegal .rsvdNotZero
  else match (opcodeField w).toNat with
    | 1 => .command .isprime
    | 2 => .command .gcd
    | 3 => .command .modinv
    | 4 => .command .modexp
    | 5 => .command .factor
    | _ => .illegal .opcodeReserved

/-- The opcode of a command (R56). -/
def Instr.opcode : Instr → BitVec 4
  | .isprime => 1
  | .gcd => 2
  | .modinv => 3
  | .modexp => 4
  | .factor => 5

/-- The encoder: the opcode zero-extended to the width (R56, R65). -/
def encode {W : Nat} (i : Instr) : Word W := i.opcode.setWidth W

/-- One row of the opcode map (R56): a word `w` is the command when `w &&& mask = pattern`. -/
structure OpcodeRow (W : Nat := 32) where
  instr : Instr
  pattern : Word W
  mask : Word W
  deriving DecidableEq, Repr

/-- The opcode map: the mask is W ones, so the whole word is compared (R56, R65). -/
def opcodeTable (W : Nat := 32) : List (OpcodeRow W) :=
  [⟨.isprime, 1, BitVec.allOnes W⟩, ⟨.gcd, 2, BitVec.allOnes W⟩, ⟨.modinv, 3, BitVec.allOnes W⟩,
   ⟨.modexp, 4, BitVec.allOnes W⟩, ⟨.factor, 5, BitVec.allOnes W⟩]

/-- What the decoder reads from an instruction whose `nbits` bits are `w`, numbered as spec/opcode_table.json numbers
them: the bits above `nbits` are 0, and a number that is no word is no command. -/
def decodeTableWord (nbits w : Nat) : Option Instr :=
  let bits := w % 2 ^ nbits
  if bits < 2 ^ Config.width then
    match decode (Word.ofNat bits : Word) with
    | .command i => some i
    | .illegal _ => none
  else none

end Sys2Proof
end

