-- ==== Sys2Proof/Machine/State.lean ====
section
/-! DEFINITION. The state of the block (10_state.md R13 to R34), the agents' turns (00_scope.md R12, 20_memory.md R47),
and the reasons a step can stop. -/

namespace Sys2Proof.Machine

/-- The eight register indices of the host interface, each under its name (10_state.md R13). They are the whole
address space of the block (20_memory.md R35). -/
inductive Reg where
  | opa | opb | opc | cmd | status | res0 | res1
  /-- Index 7: reads 0, writes ignored (R29). -/
  | reserved
  deriving DecidableEq, Repr

/-- One turn of the single total order in which host transactions, the engine's step and reset take effect
(20_memory.md R47). -/
inductive Turn (W : Nat := 32) where
  /-- The host's `RegRead(r)` (R36). -/
  | read (r : Reg)
  /-- The host's `RegWrite(r, v)` (R37 to R40). -/
  | write (r : Reg) (v : Word W)
  /-- The host's `WAIT` (30_encoding.md R62): read STATUS until its bit 0 is 0. `polls` is how many reads still find
  `BUSY = 1` before the engine's step comes, which the spec leaves open (log entry 2). -/
  | wait (polls : Nat)
  /-- The engine's step `Complete`, taken when it is enabled (R43). -/
  | engine
  /-- The reset event (70_reset_and_hazards.md R124). -/
  | reset
  deriving DecidableEq, Repr

/-- The fault codes a command can complete with (60_exceptions.md R108). They are results the block reports in
STATUS, not stops of the machine. -/
inductive FaultCode where
  | illegalCmd
  | modZero
  | notInvertible
  deriving DecidableEq, Repr

/-- How the command in flight ends (00_scope.md section 7; 20_memory.md R43). -/
inductive Completion (W : Nat := 32) where
  /-- `return (r0, r1, flag)`: a normal completion. -/
  | ret (r0 r1 : Word W) (flag : Bool)
  /-- `raise Fault(code)`: a fault completion. -/
  | raise (code : FaultCode)
  deriving DecidableEq, Repr

/-- The reasons the machine could stop with a fault: NONE. The spec gives every turn in every state a next state
(60_exceptions.md R122; 93_implementation_defined.md, end of section 1: nothing is stuck), and a fault of a command
is a next state (R107). The type has no constructor, so no step can end in a fault; safe. -/
inductive Fault where
  deriving DecidableEq, Repr

/-- The reasons a step could be refused. -/
inductive Refusal where
  /-- Raised by `exec`'s arm of an instruction that has no meaning yet; no arm raises it now. Safe: it stops where
  the hardware goes on. -/
  | notModelled (mnemonic : String)
  deriving DecidableEq, Repr

/-- The state. The first eleven fields are the whole architectural state of the block, the tuple of 10_state.md R34;
bits `W-1:8` of STATUS and index 7 are hardwired 0 and hold nothing (R20, R29). The last two fields are the model's
own, for the world outside the block. `W` is a parameter of the model and no state (R33). -/
structure State (W : Nat := 32) where
  /-- `x[0]`, first operand (R14). -/
  opa : Word W
  /-- `x[1]`, second operand (R15). -/
  opb : Word W
  /-- `x[2]`, third operand, the modulus of MODEXP (R16). -/
  opc : Word W
  /-- `x[3]`, the last accepted command word (R17). -/
  cmd : Word W
  /-- `x[5]`, first result (R18). -/
  res0 : Word W
  /-- `x[6]`, second result (R19). -/
  res1 : Word W
  /-- STATUS bit 0: a command is in flight (R21). -/
  busy : Bool
  /-- STATUS bit 1: a command has completed since the last acceptance or reset (R24). -/
  done : Bool
  /-- STATUS bit 2: the last completion was a fault completion (R25). -/
  err : Bool
  /-- STATUS bit 3: the boolean outcome of the last completion (R26). -/
  flag : Bool
  /-- STATUS bits `7:4`: the fault code of the last completion, 0 when there is none (R27). -/
  errcode : BitVec 4
  /-- MODEL'S OWN: the turns still to come, first one next (R12, R47; log entry 1). -/
  turns : List (Turn W)
  /-- MODEL'S OWN: the values the host's reads returned so far, oldest first (70_reset_and_hazards.md R135;
  log entry 4). -/
  returned : List (Word W)
  deriving DecidableEq, Repr

/-- The state right after reset: every host-visible register reads 0 (10_state.md R32; 70_reset_and_hazards.md R124).
No turn is given and no read has been made. -/
def State.resetAt (W : Nat) : State W where
  opa := 0
  opb := 0
  opc := 0
  cmd := 0
  res0 := 0
  res1 := 0
  busy := false
  done := false
  err := false
  flag := false
  errcode := 0
  turns := []
  returned := []

/-- The state right after reset at this hardware's width. -/
def State.reset : State := State.resetAt 32

end Sys2Proof.Machine
end

