-- ==== Sys2Proof/Machine/Operands.lean ====
section
/-! DEFINITION. Operands (30_encoding.md R55): implicit and positional, each the full unsigned value of its register,
not extended, scaled or shifted. There is no other operand form. -/

namespace Sys2Proof.Machine

variable {W : Nat}

/-- The first operand: n of ISPRIME, a of GCD and MODINV, the base of MODEXP, N of FACTOR (R55). -/
def operand1 (s : State W) : Nat := s.opa.toNat

/-- The second operand: b of GCD, the modulus of MODINV, the exponent of MODEXP (R55). -/
def operand2 (s : State W) : Nat := s.opb.toNat

/-- The third operand: the modulus of MODEXP (R55). -/
def operand3 (s : State W) : Nat := s.opc.toNat

/-- The operand registers a command reads, in the order of its arguments (R55; 10_state.md R30). -/
def operandRegs : Instr → List Reg
  | .isprime => [.opa]
  | .gcd => [.opa, .opb]
  | .modinv => [.opa, .opb]
  | .modexp => [.opa, .opb, .opc]
  | .factor => [.opa]

end Sys2Proof.Machine
end

