-- ==== Sys2Proof/Machine/Flags.lean ====
section
/-! DEFINITION. STATUS (10_state.md R20 to R28): the value a read returns, the fault codes, and the two ways the
outcome fields change. -/

namespace Sys2Proof.Machine

variable {W : Nat}

/-- The four-bit ERRCODE of a fault (60_exceptions.md R108). -/
def FaultCode.errcode : FaultCode → BitVec 4
  | .illegalCmd => 1
  | .modZero => 2
  | .notInvertible => 3

/-- The eight STATUS bits: ERRCODE in `7:4`, FLAG 3, ERR 2, DONE 1, BUSY 0 (R20). -/
def statusBits (s : State W) : BitVec 8 :=
  s.errcode ++ BitVec.ofBool s.flag ++ BitVec.ofBool s.err ++ BitVec.ofBool s.done ++ BitVec.ofBool s.busy

/-- What reading STATUS returns: the eight bits, zero-extended to the width (R20). -/
def statusWord (s : State W) : Word W := (statusBits s).setWidth W

/-- The outcome fields cleared: what an acceptance does to the record of the last completion (R24 to R27). This is
also the only way but reset that a fault's record is erased, the block's return from a fault (60_exceptions.md R115). -/
def clearOutcome (s : State W) : State W :=
  { s with done := false, err := false, flag := false, errcode := 0 }

/-- FLAG, ERR and ERRCODE of a normal completion (R25, R26, R27). -/
def setNormalOutcome (flag : Bool) (s : State W) : State W :=
  { s with flag := flag, err := false, errcode := 0 }

/-- FLAG, ERR and ERRCODE of a fault completion (R25, R26, R27; 60_exceptions.md R113). -/
def setFaultOutcome (code : FaultCode) (s : State W) : State W :=
  { s with flag := false, err := true, errcode := code.errcode }

end Sys2Proof.Machine
end

