-- ==== Sys2Proof/Machine/Ops.lean ====
section
/-! DEFINITION. The named operations: the host's transactions on the register file (20_memory.md R36 to R40), the
engine's completion, normal and fault (R43; 60_exceptions.md R113), the reset event (70_reset_and_hazards.md R124), and
the exact arithmetic primitives on naturals (00_scope.md R11). -/

namespace Sys2Proof.Machine

variable {W : Nat}

/-! ### Register indices -/

/-- The register at a 3-bit index (10_state.md R13). -/
def Reg.ofIndex (i : BitVec 3) : Reg :=
  match i.toNat with
  | 0 => .opa
  | 1 => .opb
  | 2 => .opc
  | 3 => .cmd
  | 4 => .status
  | 5 => .res0
  | 6 => .res1
  | _ => .reserved

/-- The 3-bit index of a register (R13). -/
def Reg.index : Reg → BitVec 3
  | .opa => 0
  | .opb => 1
  | .opc => 2
  | .cmd => 3
  | .status => 4
  | .res0 => 5
  | .res1 => 6
  | .reserved => 7

/-! ### Host transactions -/

/-- The value of `x[i]` (R36): STATUS is computed, index 7 reads 0 (10_state.md R29). -/
def regValue (r : Reg) (s : State W) : Word W :=
  match r with
  | .opa => s.opa
  | .opb => s.opb
  | .opc => s.opc
  | .cmd => s.cmd
  | .status => statusWord s
  | .res0 => s.res0
  | .res1 => s.res1
  | .reserved => 0

/-- `RegRead(r)` (R36): the value goes to the host, nothing of the block changes. -/
def regRead (r : Reg) (s : State W) : State W :=
  { s with returned := s.returned ++ [regValue r s] }

/-- The acceptance of a command word (R39): legal or not, the word is stored, BUSY is set and the outcome fields are
cleared. RES0, RES1 and the operands keep their values. -/
def acceptCommand (v : Word W) (s : State W) : State W :=
  { clearOutcome s with cmd := v, busy := true }

/-- `RegWrite(r, v)` (R37 to R40): while BUSY, and to a read-only or reserved index always, the write is ignored. -/
def regWrite (r : Reg) (v : Word W) (s : State W) : State W :=
  match r with
  | .opa => if s.busy then s else { s with opa := v }
  | .opb => if s.busy then s else { s with opb := v }
  | .opc => if s.busy then s else { s with opc := v }
  | .cmd => if s.busy then s else acceptCommand v s
  | .status => s
  | .res0 => s
  | .res1 => s
  | .reserved => s

/-! ### Completion and reset -/

/-- A normal completion (R43). -/
def normalCompletion (r0 r1 : Word W) (flag : Bool) (s : State W) : State W :=
  { setNormalOutcome flag s with res0 := r0, res1 := r1, done := true, busy := false }

/-- A fault completion, the block's way of taking an exception (60_exceptions.md R113): the code goes to STATUS, the
results read 0, the operands and CMD keep their values, no control goes anywhere. -/
def faultCompletion (code : FaultCode) (s : State W) : State W :=
  { setFaultOutcome code s with res0 := 0, res1 := 0, done := true, busy := false }

/-- The engine's atomic completion step, given how the command ends (R43). -/
def complete (c : Completion W) (s : State W) : State W :=
  match c with
  | .ret r0 r1 flag => normalCompletion r0 r1 flag s
  | .raise code => faultCompletion code s

/-- The reset event (70_reset_and_hazards.md R124): the whole block takes its reset values, in every state, and a
command in flight is dropped (R125). What the world outside does and has seen is not the block's and stays. -/
def resetEvent (s : State W) : State W :=
  { State.resetAt W with turns := s.turns, returned := s.returned }

/-! ### Arithmetic primitives on naturals -/

/-- `bitlen(n)`: 0 for 0, else the least `k` with `n < 2^k` (R11). -/
def bitlen (n : Nat) : Nat := if n = 0 then 0 else Nat.log2 n + 1

/-- The digits of an exact integer square root, one binary digit a call, the highest first: `r` is the root so far,
and a digit is set when the square of the longer root does not exceed `n`. -/
def isqrtDigits (n : Nat) : Nat → Nat → Nat
  | 0, r => r
  | k + 1, r =>
    let longer := r + 2 ^ k
    isqrtDigits n k (if longer * longer ≤ n then longer else r)

/-- `isqrt(n)`: the greatest `s` with `s * s <= n`, on exact products (R11). -/
def isqrt (n : Nat) : Nat := isqrtDigits n (bitlen n) 0

/-- `d divides n` (R11). -/
def divides (d n : Nat) : Bool := decide (0 < d) && n % d == 0

/-- The first of the `count` candidates that end at `last` which passes the test, tried in increasing order: the scan
of the trial divisions (40_primality.md R69; 43_factor.md R99). -/
def firstHit (test : Nat → Bool) (last : Nat) : Nat → Option Nat
  | 0 => none
  | count + 1 => bif test (last - count) then some (last - count) else firstHit test last count

end Sys2Proof.Machine
end

