-- ==== Sys2Proof/Machine/Factor.lean ====
section
/-! DEFINITION. FACTOR, the trial-division factorizer (43_factor.md R99 to R105). -/

namespace Sys2Proof.Machine

variable {W : Nat}

/-- The scan (R99): the first of 2, 3, ..., `isqrt N + 1` that divides N and is below N. The test `i < N` is the
spec's reading of the source on N = 2 (R101; 90_conflicts.md C1). -/
def leastProperDivisor (n : Nat) : Option Nat :=
  firstHit (fun i => divides i n && decide (i < n)) (isqrt n + 1) (isqrt n)

/-- How FACTOR ends (R99, R100): the divisor, its cofactor and FLAG, or "not found"; it never faults. -/
def factorCompletion (n : Nat) : Completion W :=
  match leastProperDivisor n with
  | some p => .ret (Word.ofNat p) (Word.ofNat (n / p)) true
  | none => .ret 0 0 false

/-- FACTOR completes (R99; 20_memory.md R43). -/
def execFactor (s : State W) : Host.Outcome (State W) Fault Refusal :=
  .next (complete (factorCompletion (operand1 s)) s)

end Sys2Proof.Machine
end

