-- ==== Sys2Proof/Machine/GcdModinv.lean ====
section
/-! DEFINITION. GCD and MODINV, Euclid's algorithm and its extended form (41_gcd_modinv.md R76 to R87). -/

namespace Sys2Proof.Machine

variable {W : Nat}

/-- Euclid's loop (R77). `fuel` bounds the passes; `b` strictly decreases (R79), so `b + 1` passes are enough. -/
def euclidLoop : Nat → Nat → Nat → Nat
  | 0, a, _ => a
  | fuel + 1, a, b => if b = 0 then a else euclidLoop fuel b (a % b)

/-- GCD on naturals (R76, R77). -/
def gcdNat (a b : Nat) : Nat := euclidLoop (b + 1) a b

/-- How GCD ends (R76): RES0 is the gcd, 0 for two zeros; it never faults. -/
def gcdCompletion (a b : Nat) : Completion W := .ret (Word.ofNat (gcdNat a b)) 0 false

/-- GCD completes (R76; 20_memory.md R43). -/
def execGcd (s : State W) : Host.Outcome (State W) Fault Refusal :=
  .next (complete (gcdCompletion (operand1 s) (operand2 s)) s)

/-- The loop of the extended algorithm (R82): remainders are naturals, coefficients are signed and unbounded. It
answers the last non-zero remainder and its coefficient. `fuel` bounds the passes; `r1` strictly decreases (R86). -/
def extendedLoop : Nat → Nat → Nat → Int → Int → Nat × Int
  | 0, r0, _, t0, _ => (r0, t0)
  | fuel + 1, r0, r1, t0, t1 =>
    if r1 = 0 then (r0, t0)
    else
      let q := r0 / r1
      extendedLoop fuel r1 (r0 - q * r1) t1 (t0 - q * t1)

/-- How MODINV ends (R81 to R84): the zero modulus is tested first, then the gcd; otherwise the coefficient is
brought into `[0, m)`. For `m = 1` that gives 0 (R84). -/
def modinvCompletion (a m : Nat) : Completion W :=
  if m = 0 then .raise .modZero
  else
    let (g, t) := extendedLoop (a % m + 1) m (a % m) 0 1
    if g ≠ 1 then .raise .notInvertible
    else .ret (Word.ofNat (t % (m : Int)).toNat) 0 false

/-- MODINV completes (R81; 20_memory.md R43). -/
def execModinv (s : State W) : Host.Outcome (State W) Fault Refusal :=
  .next (complete (modinvCompletion (operand1 s) (operand2 s)) s)

end Sys2Proof.Machine
end

