-- ==== Sys2Proof/Machine/Modexp.lean ====
section
/-! DEFINITION. MODEXP, modular exponentiation (42_modexp.md R89 to R95). -/

namespace Sys2Proof.Machine

variable {W : Nat}

/-- The square-and-multiply loop (R90), from the exponent's lowest bit up, on exact products (R95). `fuel` bounds the
passes; the exponent is halved in each, so `bitlen e` are enough (R94). -/
def powerLoop (m : Nat) : Nat → Nat → Nat → Nat → Nat
  | 0, acc, _, _ => acc
  | fuel + 1, acc, b, e =>
    if e = 0 then acc
    else powerLoop m fuel (if e % 2 = 1 then acc * b % m else acc) (b * b % m) (e / 2)

/-- The power modulo `m` (R90): `base ^ exp mod m` for `m > 0`. -/
def modexpNat (base exp m : Nat) : Nat := powerLoop m (bitlen exp) (1 % m) (base % m) exp

/-- How MODEXP ends (R89, R91): a zero modulus faults; otherwise RES0 is the power. -/
def modexpCompletion (base exp m : Nat) : Completion W :=
  if m = 0 then .raise .modZero else .ret (Word.ofNat (modexpNat base exp m)) 0 false

/-- MODEXP completes (R89; 20_memory.md R43). -/
def execModexp (s : State W) : Host.Outcome (State W) Fault Refusal :=
  .next (complete (modexpCompletion (operand1 s) (operand2 s) (operand3 s)) s)

end Sys2Proof.Machine
end

