-- ==== Sys2Proof/Machine/Primality.lean ====
section
/-! DEFINITION. ISPRIME, trial-division primality test (40_primality.md R69 to R74). -/

namespace Sys2Proof.Machine

variable {W : Nat}

/-- A candidate of the form the trial set wants: `d mod 6` is 1 or 5 (R70). -/
def trialForm (d : Nat) : Bool := d % 6 == 1 || d % 6 == 5

/-- ISPRIME on naturals, in the order of the spec's pseudocode (R69); the candidates 5 to `isqrt n`, both included, are
those of `TrialSet n` (R70). -/
def isPrimeNat (n : Nat) : Bool :=
  if n ≤ 1 then false
  else if n = 2 ∨ n = 3 then true
  else if n % 2 = 0 ∨ n % 3 = 0 then false
  else (firstHit (fun d => trialForm d && divides d n) (isqrt n) (isqrt n - 4)).isNone

/-- How ISPRIME ends (R69): RES0 and FLAG say whether n is prime, RES1 is 0, and it never faults. -/
def isprimeCompletion (n : Nat) : Completion W :=
  let prime := isPrimeNat n
  .ret (if prime then 1 else 0) 0 prime

/-- ISPRIME completes (R69; 20_memory.md R43). -/
def execIsprime (s : State W) : Host.Outcome (State W) Fault Refusal :=
  .next (complete (isprimeCompletion (operand1 s)) s)

end Sys2Proof.Machine
end

