-- ==== Sys2Proof/Machine/Dispatch.lean ====
section
/-! DEFINITION. One arm per command: what the completion of that command does to the state. -/

namespace Sys2Proof.Machine

def exec (i : Instr) (s : State) : Host.Outcome State Fault Refusal :=
  match i with
  | .isprime => Sys2Proof.Machine.execIsprime s
  | .gcd => Sys2Proof.Machine.execGcd s
  | .modinv => Sys2Proof.Machine.execModinv s
  | .modexp => Sys2Proof.Machine.execModexp s
  | .factor => Sys2Proof.Machine.execFactor s

end Sys2Proof.Machine
end

