-- ==== Sys2Proof/Machine/Engine.lean ====
section
/-! DEFINITION. The agents' turns (00_scope.md R12): the engine's step `Complete` (20_memory.md R43), the host's
transactions and its WAIT (30_encoding.md R62), reset, and one step of the machine. All of it at every width W; `exec`
and `step` are the instances at this hardware's width (log entry 6). -/

namespace Sys2Proof.Machine

variable {W : Nat}

/-- `Exec(c, a, b, m)` (20_memory.md R44): how a command word ends on three operand values, a total function of
nothing else (00_scope.md R10). -/
def completionOf (c a b m : Word W) : Completion W :=
  match decode c with
  | .illegal _ => .raise .illegalCmd
  | .command .isprime => isprimeCompletion a.toNat
  | .command .gcd => gcdCompletion a.toNat b.toNat
  | .command .modinv => modinvCompletion a.toNat b.toNat
  | .command .modexp => modexpCompletion a.toNat b.toNat m.toNat
  | .command .factor => factorCompletion a.toNat

/-- The completion of a command at any width: `exec` is this at this hardware's width. -/
def execAt (i : Instr) (s : State W) : Host.Outcome (State W) Fault Refusal :=
  match i with
  | .isprime => execIsprime s
  | .gcd => execGcd s
  | .modinv => execModinv s
  | .modexp => execModexp s
  | .factor => execFactor s

/-- The engine's step on the command word in CMD: a command has its meaning; an illegal word is a fault completion
(R58; 60_exceptions.md R109). -/
def engineComplete (s : State W) : Host.Outcome (State W) Fault Refusal :=
  match decode s.cmd with
  | .command i => execAt i s
  | .illegal _ => .next (faultCompletion .illegalCmd s)

/-- The engine's turn: `Complete` is enabled exactly when `BUSY = 1` (R43); otherwise the engine is idle. -/
def engineTurn (s : State W) : Host.Outcome (State W) Fault Refusal :=
  if s.busy then engineComplete s else .next s

/-- The host's WAIT (30_encoding.md R62), one read of STATUS or one engine step at a time: with `BUSY = 0` a last read
ends it; with `BUSY = 1` it reads and goes on, and when the open number of such reads is used up the engine's
step is taken. -/
def waitTurn (polls : Nat) (s : State W) : Host.Outcome (State W) Fault Refusal :=
  if s.busy then
    match polls with
    | 0 => engineComplete { s with turns := .wait 0 :: s.turns }
    | n + 1 => .next { regRead .status s with turns := .wait n :: s.turns }
  else .next (regRead .status s)

/-- One turn, already taken off the list of turns to come. -/
def takeTurn (t : Turn W) (s : State W) : Host.Outcome (State W) Fault Refusal :=
  match t with
  | .read r => .next (regRead r s)
  | .write r v => .next (regWrite r v s)
  | .wait polls => waitTurn polls s
  | .engine => engineTurn s
  | .reset => .next (resetEvent s)

/-- One step at any width: the next turn of the total order (20_memory.md R47). When no turn is given, the engine has
its turn, so that a command in flight completes (the fairness of R43) and an idle block stays as it is
(60_exceptions.md R121). -/
def stepAt (s : State W) : Host.Outcome (State W) Fault Refusal :=
  match s.turns with
  | [] => engineTurn s
  | t :: rest => takeTurn t { s with turns := rest }

/-- The state right after the acceptance of the word `w`, with the engine's turn next. -/
def awaitingCompletion (w : Word W) (s : State W) : State W :=
  { acceptCommand w s with turns := .engine :: s.turns }

end Sys2Proof.Machine
end

