-- ==== Sys2Proof/Machine/Step.lean ====
section
/-! DEFINITION. One step of the machine, and the machine at each width. -/

namespace Sys2Proof.Machine

/-- One step of this hardware, `W = 32`. -/
def step (s : State) : Host.Outcome State Fault Refusal := stepAt s

/-- The machine as a function of the width, an argument that must be at least 8 (00_scope.md R5; 10_state.md R33).
`Sys2Proof.core` is this machine at `W = 32`. -/
def machineAt (W : Nat) (_allowed : Config.WidthAllowed W) : Host.Core where
  State := State W
  Fault := Fault
  Refusal := Refusal
  step := stepAt
  reset := State.resetAt W

/-- `s` with the word `w` accepted as the command in flight and the engine's turn next, so that the very next step
runs it. The block fetches nothing (20_memory.md R49): CMD is where the engine reads its command word, once, at the
completion step. Stands for the host's accepted write to CMD (log entry 5). -/
def State.withFetchWord (s : State) (nbits w : Nat) : State :=
  awaitingCompletion (Word.ofNat (w % 2 ^ nbits)) s

end Sys2Proof.Machine
end

