-- ==== Sys2Proof/Machine/Listing.lean ====
section
/-! DEFINITION. The host notation (30_encoding.md R62 to R68): numbers, statements, the macro statements and the two
pseudo-instructions, their assembly into turns of the machine, and the written form of a transaction. Host branches and
loops run in the host (R60) and are no part of it. -/

namespace Sys2Proof.Machine

variable {W : Nat}

/-! ### Numbers (R68) -/

/-- The value of a digit character, if it is one (hexadecimal digits in either case). -/
def digitValue (c : Char) : Option Nat :=
  let n := c.toNat
  if 48 ≤ n ∧ n ≤ 57 then some (n - 48)
  else if 65 ≤ n ∧ n ≤ 70 then some (n - 55)
  else if 97 ≤ n ∧ n ≤ 102 then some (n - 87)
  else none

/-- The value of the digits in `base`, after those already read have given `acc`. -/
def digitsValue (base : Nat) : Nat → List Char → Option Nat
  | acc, [] => some acc
  | acc, c :: cs =>
    match digitValue c with
    | some d => if d < base then digitsValue base (acc * base + d) cs else none
    | none => none

/-- A natural number as a host statement writes it: decimal, or hexadecimal after `0x`. -/
def naturalOf : List Char → Option Nat
  | [] => none
  | '0' :: 'x' :: c :: cs => digitsValue 16 0 (c :: cs)
  | c :: cs => digitsValue 10 0 (c :: cs)

/-- A number as a host could write it, a negative one included; whether it may stand in a statement is `valueWf`. -/
def numberOf : List Char → Option Int
  | '-' :: cs => (naturalOf cs).map (fun n => -(n : Int))
  | cs => (naturalOf cs).map (fun n => (n : Int))

/-! ### Primitive statements (R62) -/

/-- A primitive host statement. -/
inductive HostStmt where
  /-- `WR reg, value`. -/
  | wr (r : Reg) (value : Int)
  /-- `CMD mnemonic`. -/
  | cmd (i : Instr)
  /-- `RD reg`. -/
  | rd (r : Reg)
  /-- `WAIT`. -/
  | wait
  deriving DecidableEq, Repr

/-- The registers `WR` may name: OPA, OPB, OPC, CMD (R62). -/
def Reg.writable : Reg → Bool
  | .opa => true
  | .opb => true
  | .opc => true
  | .cmd => true
  | .status => false
  | .res0 => false
  | .res1 => false
  | .reserved => false

/-- A well-formed statement: `WR` names one of its four registers and a value below `2^W` (R68), `RD` names a
register and not the reserved index (log entry 13). -/
def HostStmt.wf (st : HostStmt) (W : Nat := 32) : Bool :=
  match st with
  | .wr r v => r.writable && valueWf v W
  | .cmd i => i.wf
  | .rd r => decide (r ≠ .reserved)
  | .wait => true

/-- The transaction a statement stands for (R62); `polls` is the open length of a `WAIT` (log entry 2). -/
def HostStmt.turn (polls : Nat) : HostStmt → Turn W
  | .wr r v => .write r (Word.ofNat v.toNat)
  | .cmd i => .write .cmd (encode i)
  | .rd r => .read r
  | .wait => .wait polls

/-- Assembles a listing from line `line` on, with `polls k` the open length of a `WAIT` at line `k`. An ill-formed
statement is refused here and never reaches the block (R68). That the other statements of its listing are refused with
it is the model's choice (log entry 16). -/
def assembleFrom (polls : Nat → Nat) : Nat → List HostStmt → Option (List (Turn W))
  | _, [] => some []
  | line, st :: rest =>
    if st.wf W then (assembleFrom polls (line + 1) rest).map (fun ts => st.turn (polls line) :: ts) else none

/-- Assembles a listing, whose lines are numbered from 1 (10_state.md R22). -/
def assemble (polls : Nat → Nat) (listing : List HostStmt) (W : Nat := 32) : Option (List (Turn W)) :=
  assembleFrom polls 1 listing

/-! ### Macro statements and pseudo-instructions (R63, R64) -/

/-- A statement that stands for a sequence; `none` is the operand written `-`, which keeps its old value (R63). -/
inductive Shorthand where
  | isprime (n : Option Int)
  | gcd (a b : Option Int)
  | modinv (a m : Option Int)
  | modexp (base exp modulus : Option Int)
  | factor (n : Option Int)
  /-- `ENCRYPT message, N, e` (R64). -/
  | encrypt (message n e : Option Int)
  /-- `DECRYPT value, N, d` (R64). -/
  | decrypt (value n d : Option Int)
  deriving DecidableEq, Repr

/-- `WR reg, value`, or nothing for an operand written `-`. -/
def writeGiven (r : Reg) : Option Int → List HostStmt
  | some v => [.wr r v]
  | none => []

/-- The expansion of `MODEXP base, exp, mod` (R63). -/
def expandModexp (base exp modulus : Option Int) : List HostStmt :=
  writeGiven .opa base ++ writeGiven .opb exp ++ writeGiven .opc modulus ++ [.cmd .modexp, .wait]

/-- The sequence a macro statement or a pseudo-instruction stands for (R63, R64). -/
def Shorthand.expand : Shorthand → List HostStmt
  | .isprime n => writeGiven .opa n ++ [.cmd .isprime, .wait]
  | .gcd a b => writeGiven .opa a ++ writeGiven .opb b ++ [.cmd .gcd, .wait]
  | .modinv a m => writeGiven .opa a ++ writeGiven .opb m ++ [.cmd .modinv, .wait]
  | .modexp base exp modulus => expandModexp base exp modulus
  | .factor n => writeGiven .opa n ++ [.cmd .factor, .wait]
  | .encrypt message n e => expandModexp message e n
  | .decrypt value n d => expandModexp value d n

/-! ### The written form of a transaction (R62) -/

/-- One hexadecimal digit. -/
def hexDigit (d : Nat) : Char :=
  ['0', '1', '2', '3', '4', '5', '6', '7', '8', '9', 'A', 'B', 'C', 'D', 'E', 'F'].getD d '0'

/-- The `count` lowest hexadecimal digits of `n`, the highest first. -/
def hexDigits : Nat → Nat → List Char
  | 0, _ => []
  | count + 1, n => hexDigits count (n / 16) ++ [hexDigit (n % 16)]

/-- `W i vvvvvvvv` for a write, `R i` for a read; the other turns are no single transaction (R62). The value has W/4
hexadecimal digits, rounded up for a width that is no multiple of 4 (log entry 13). -/
def Turn.written : Turn W → Option (List Char)
  | .read r => some (['R', ' '] ++ hexDigits 1 r.index.toNat)
  | .write r v => some (['W', ' '] ++ hexDigits 1 r.index.toNat ++ [' '] ++ hexDigits ((W + 3) / 4) v.toNat)
  | .wait _ => none
  | .engine => none
  | .reset => none

end Sys2Proof.Machine
end

