-- ==== Sys2Proof/Machine/Binding.lean ====
section
/-! DEFINITION. The signal-level binding of the transactions (20_memory.md R51, R52): one rising edge of clk. It adds no
behaviour to the transactions; it fixes which of them, and which completion, fall on one edge, and in which order. -/

namespace Sys2Proof.Machine

variable {W : Nat}

/-- The input ports at one rising edge of clk (R51). -/
structure Pins (W : Nat := 32) where
  /-- Synchronous reset, active high. -/
  rst : Bool
  /-- The cycle carries a host transaction. -/
  sel : Bool
  /-- With `sel`: a `RegWrite` if set, a `RegRead` if not. -/
  we : Bool
  /-- The register index. -/
  addr : BitVec 3
  /-- The value of a `RegWrite`. -/
  wdata : Word W
  deriving DecidableEq, Repr

/-- The output port `rdata` (R51): the value of `x[addr]` in the state before the coming edge, whatever the other pins
carry. While `rst` is held that is the reset value from the second edge on (70_reset_and_hazards.md R124). -/
def rdata (p : Pins W) (s : State W) : Word W :=
  regValue (Reg.ofIndex p.addr) s

/-- The transaction the pins present, on the state before the edge; without `sel` there is none (R51). -/
def busTransaction (p : Pins W) (s : State W) : State W :=
  if p.sel then
    if p.we then regWrite (Reg.ofIndex p.addr) p.wdata s else regRead (Reg.ofIndex p.addr) s
  else s

/-- An edge with `rst` (70_reset_and_hazards.md R124): the reset event; a transaction presented is discarded, and a
`RegRead` among them returns the reset value, at the first such edge too (log entry 15). -/
def resetEdge (p : Pins W) (s : State W) : State W :=
  if p.sel && !p.we then regRead (Reg.ofIndex p.addr) (resetEvent s) else resetEvent s

/-- One rising edge (R52): reset discards the transaction and the completion at that edge; otherwise the transaction
takes effect on the state before the edge, and a completion due at the edge, which needs `BUSY = 1` before it, comes
after the transaction. -/
def clockEdge (p : Pins W) (due : Bool) (s : State W) : Host.Outcome (State W) Fault Refusal :=
  if p.rst then .next (resetEdge p s)
  else if s.busy && due then engineComplete (busTransaction p s)
  else .next (busTransaction p s)

/-- The block under its clock: its state and how many edges the command in flight has seen since its acceptance, a
part of the engine's hidden position (10_state.md R22, R23). -/
structure Clocked (W : Nat := 32) where
  block : State W
  age : Nat
  deriving DecidableEq, Repr

/-- `LAT` of the command in flight: at least one edge, otherwise open (00_scope.md R7). -/
def latency (s : State W) : Nat := Config.extraCycles s.cmd s.opa s.opb s.opc + 1

/-- One edge of the clocked block: the completion is due `LAT` edges after the acceptance (R52). -/
def Clocked.edge (p : Pins W) (c : Clocked W) : Host.Outcome (Clocked W) Fault Refusal :=
  match clockEdge p (decide (latency c.block ≤ c.age + 1)) c.block with
  | .next b => .next ⟨b, if c.block.busy then c.age + 1 else 0⟩
  | .fault r => .fault r
  | .refused r => .refused r

/-- A run of edges, one for each setting of the pins. -/
def Clocked.edges : List (Pins W) → Clocked W → Host.Outcome (Clocked W) Fault Refusal
  | [], c => .next c
  | p :: rest, c =>
    match c.edge p with
    | .next c' => Clocked.edges rest c'
    | .fault r => .fault r
    | .refused r => .refused r

end Sys2Proof.Machine
end

