-- ==== Sys2Proof/Safety.lean ====
section
/-! DEFINITION. The terms claims about the machine use: the invariants of STATUS (10_state.md R28), what DONE says of
the result registers (R24), the idle state after reset (70_reset_and_hazards.md R126), and the quiescent block (R135). -/

namespace Sys2Proof.Machine

variable {W : Nat}

/-- The invariants of STATUS, clause by clause (10_state.md R28), and that codes 4 to 15 are never produced (R27). -/
structure StatusInv (s : State W) : Prop where
  not_busy_and_done : ¬(s.busy = true ∧ s.done = true)
  err_done : s.err = true → s.done = true
  errcode_iff_err : s.errcode ≠ 0 ↔ s.err = true
  flag_done : s.flag = true → s.done = true ∧ s.err = false
  errcode_le : s.errcode.toNat ≤ 3

/-- `DONE = 1` means RES0, RES1, ERR, FLAG and ERRCODE describe the command word now in CMD (R24): they are what its
completion gives on some operands. The operands may have been rewritten since. -/
def ResultsDescribeCmd (s : State W) : Prop :=
  s.done = true → ∃ a b m : Word W, complete (completionOf s.cmd a b m) s = s

/-- `BUSY = DONE = 0` only between reset and the first acceptance (R28): CMD and the results still read 0. -/
def FreshWhenIdle (s : State W) : Prop :=
  s.busy = false → s.done = false → s.cmd = 0 ∧ s.res0 = 0 ∧ s.res1 = 0

/-- The invariant of the machine. -/
structure Coherent (s : State W) : Prop where
  status : StatusInv s
  results : ResultsDescribeCmd s
  fresh : FreshWhenIdle s

/-- A run of the machine: so many steps, to the first that answers no next state (70_reset_and_hazards.md R135). -/
def run : Nat → State W → Host.Outcome (State W) Fault Refusal
  | 0, s => .next s
  | steps + 1, s =>
    match stepAt s with
    | .next t => run steps t
    | .fault r => .fault r
    | .refused r => .refused r

/-- The block is quiescent: no command is in flight (70_reset_and_hazards.md R135). -/
def quiescent (s : State W) : Bool := !s.busy

/-- The architectural state, the tuple of 10_state.md R34. -/
structure Arch (W : Nat := 32) where
  opa : Word W
  opb : Word W
  opc : Word W
  cmd : Word W
  res0 : Word W
  res1 : Word W
  busy : Bool
  done : Bool
  err : Bool
  flag : Bool
  errcode : BitVec 4
  deriving DecidableEq, Repr

/-- The architectural part of a state: all of it but the model's own fields (R34). -/
def State.arch (s : State W) : Arch W :=
  ⟨s.opa, s.opb, s.opc, s.cmd, s.res0, s.res1, s.busy, s.done, s.err, s.flag, s.errcode⟩

/-! ### The same block at a greater width -/

/-- A turn at a greater width: a value written is zero-extended. -/
def Turn.widen (V : Nat) : Turn W → Turn V
  | .read r => .read r
  | .write r v => .write r (v.setWidth V)
  | .wait polls => .wait polls
  | .engine => .engine
  | .reset => .reset

/-- A state at a greater width: every register and every value seen from outside is zero-extended. -/
def State.widen (V : Nat) (s : State W) : State V where
  opa := s.opa.setWidth V
  opb := s.opb.setWidth V
  opc := s.opc.setWidth V
  cmd := s.cmd.setWidth V
  res0 := s.res0.setWidth V
  res1 := s.res1.setWidth V
  busy := s.busy
  done := s.done
  err := s.err
  flag := s.flag
  errcode := s.errcode
  turns := s.turns.map (Turn.widen V)
  returned := s.returned.map (BitVec.setWidth V)

end Sys2Proof.Machine
end

