-- ==== Sys2Proof/Certificates/Slice0/Obligations.lean ====
section
/-! DEFINITION. The statements for the provers. `s`, `t` are states, `rest` the turns after the next one. An equation
`step s = .next { s with ... }` is a frame as well: every field it does not name keeps its value. The block has no
memory and no program counter (20_memory.md R35; 10_state.md R22), so no frame speaks of either. A type written
without its width, such as `State`, is at this hardware's W = 32; the statements that name `W` hold for every width the
model's argument may take (00_scope.md R5). -/

open Sys2Proof Sys2Proof.Machine

/-! ### Command words -/

/-- Words written out from the spec's encoding decode to what they stand for (30_encoding.md R53, R56, R58). -/
def Obligations.DecodeOfWordsFromTheOpcodeMap : Prop :=
  decode 0b00000000000000000000000000000001#32 = .command .isprime ∧
  decode 0b00000000000000000000000000000010#32 = .command .gcd ∧
  decode 0b00000000000000000000000000000011#32 = .command .modinv ∧
  decode 0b00000000000000000000000000000100#32 = .command .modexp ∧
  decode 0b00000000000000000000000000000101#32 = .command .factor ∧
  decode 0x00000000#32 = .illegal .opcodeReserved ∧ decode 0x00000006#32 = .illegal .opcodeReserved ∧
  decode 0x0000000F#32 = .illegal .opcodeReserved ∧ decode 0x00000011#32 = .illegal .rsvdNotZero ∧
  decode 0x80000001#32 = .illegal .rsvdNotZero

/-- At every width, decoding an encoded command gives it back, and its word is legal. -/
def Obligations.EncodeThenDecodeGivesTheCommand : Prop :=
  ∀ (W : Nat) (i : Instr), Config.WidthAllowed W → i.wf = true →
    decode (encode i : Word W) = .command i ∧ commandWordWf (encode i : Word W) = true

/-- At every width, of all words the decoder takes exactly the five of the opcode map, by match and mask, and the
table's rows do not overlap (R56, R57, R59). -/
def Obligations.DecodeAcceptsExactlyTheOpcodeMap : Prop :=
  ∀ (W : Nat) (w : Word W) (i : Instr), Config.WidthAllowed W →
    (decode w = .command i ↔ ∃ row ∈ opcodeTable W, row.instr = i ∧ w &&& row.mask = row.pattern) ∧
    (decode w = .command i ↔ w = encode i)

/-- R58, R109: an illegal word is accepted like any other and completes with ILLEGAL_CMD; no operand is read or
changed. -/
def Obligations.IllegalWordCompletesWithIllegalCmd : Prop :=
  ∀ (w : Word) (s : State) (rest : List Turn),
    (w.toNat / 16 ≠ 0 ∨ w.toNat % 16 = 0 ∨ 6 ≤ w.toNat % 16) →
    s.busy = false → s.turns = .write .cmd w :: .engine :: rest →
    ∃ t u, step s = .next t ∧ t.cmd = w ∧ t.busy = true ∧ step t = .next u ∧
      u = { s with
            cmd := w, res0 := 0, res1 := 0, busy := false, done := true, err := true, flag := false, errcode := 1,
            turns := rest } ∧
      regValue .status u = 0x16

/-! ### Host transactions -/

/-- R36: a read of any index, in any state, returns the register's value and changes nothing else. -/
def Obligations.ReadReturnsTheRegisterAndChangesNothing : Prop :=
  ∀ (s : State) (i : BitVec 3) (rest : List Turn), s.turns = .read (Reg.ofIndex i) :: rest →
    step s = .next { s with
      turns := rest
      returned := s.returned ++ [
        match i.toNat with
        | 0 => s.opa
        | 1 => s.opb
        | 2 => s.opc
        | 3 => s.cmd
        | 4 => BitVec.ofNat 32
            (s.errcode.toNat * 16 + s.flag.toNat * 8 + s.err.toNat * 4 + s.done.toNat * 2 + s.busy.toNat)
        | 5 => s.res0
        | 6 => s.res1
        | _ => 0#32] }

/-- R37: a write to an operand register stores the value when `BUSY = 0` and is ignored when `BUSY = 1`. -/
def Obligations.OperandWriteStoresOrIsIgnored : Prop :=
  ∀ (s : State) (v : Word) (rest : List Turn),
    (s.busy = false →
      (s.turns = .write .opa v :: rest → step s = .next { s with opa := v, turns := rest }) ∧
      (s.turns = .write .opb v :: rest → step s = .next { s with opb := v, turns := rest }) ∧
      (s.turns = .write .opc v :: rest → step s = .next { s with opc := v, turns := rest })) ∧
    (s.busy = true →
      (s.turns = .write .opa v :: rest ∨ s.turns = .write .opb v :: rest ∨ s.turns = .write .opc v :: rest) →
      step s = .next { s with turns := rest })

/-- R38: a command write while BUSY is lost, and no step but reset ends the command in flight except its own
completion. -/
def Obligations.CommandWriteWhileBusyIsLost : Prop :=
  (∀ (s : State) (v : Word) (rest : List Turn), s.busy = true → s.turns = .write .cmd v :: rest →
    step s = .next { s with turns := rest }) ∧
  (∀ s t : State, s.busy = true → (∀ rest, s.turns ≠ .reset :: rest) → step s = .next t →
    (t.busy = true ∧ t.cmd = s.cmd ∧ t.opa = s.opa ∧ t.opb = s.opb ∧ t.opc = s.opc) ∨
    ∃ ts, t = complete (completionOf s.cmd s.opa s.opb s.opc) { s with turns := ts })

/-- R39: a command write with `BUSY = 0` is accepted whatever the word, an illegal one to become a fault; from then on,
while BUSY, the operands and the command word cannot change but by reset. -/
def Obligations.CommandWriteIsAccepted : Prop :=
  (∀ (s : State) (v : Word) (rest : List Turn), s.busy = false → s.turns = .write .cmd v :: rest →
    step s = .next { s with
      cmd := v, busy := true, done := false, err := false, flag := false, errcode := 0, turns := rest }) ∧
  (∀ s t : State, s.busy = true → (∀ rest, s.turns ≠ .reset :: rest) → step s = .next t →
    t.opa = s.opa ∧ t.opb = s.opb ∧ t.opc = s.opc ∧ t.cmd = s.cmd) ∧
  (∀ v a b m : Word, (∀ i, decode v ≠ .command i) → completionOf v a b m = .raise .illegalCmd)

/-- R40: a write to index 4, 5, 6 or 7 is ignored in every state. -/
def Obligations.ReadOnlyAndReservedWritesAreIgnored : Prop :=
  ∀ (s : State) (i : BitVec 3) (v : Word) (rest : List Turn), 4 ≤ i.toNat →
    s.turns = .write (Reg.ofIndex i) v :: rest → step s = .next { s with turns := rest }

/-- R20: the bits of STATUS, at every width that has its 8 bits; it is read only, and reading it has no side effect on
the block. -/
def Obligations.StatusBitsStandWhereTheLayoutSays : Prop :=
  ∀ (W : Nat) (s : State W), Config.WidthAllowed W →
    (regValue .status s).getLsbD 0 = s.busy ∧ (regValue .status s).getLsbD 1 = s.done ∧
    (regValue .status s).getLsbD 2 = s.err ∧ (regValue .status s).getLsbD 3 = s.flag ∧
    (∀ k, k < 4 → (regValue .status s).getLsbD (4 + k) = s.errcode.getLsbD k) ∧
    (∀ k, 8 ≤ k → (regValue .status s).getLsbD k = false) ∧
    (∀ v, regWrite .status v s = s) ∧ (regRead .status s).arch = s.arch ∧ regValue .status (State.resetAt W) = 0

/-! ### The engine -/

/-- The engine runs the command its decoder reads from CMD: when the turn is the engine's, when no turn is given, and
when a WAIT has no read left before the completion (log entries 1 and 2 for the last two). The turn taken is all that
`step` adds to `exec`. -/
def Obligations.StepRunsTheDecodedCommand : Prop :=
  ∀ (s : State) (i : Instr), s.busy = true → decode s.cmd = .command i →
    (∀ rest, s.turns = .engine :: rest → step s = exec i { s with turns := rest }) ∧
    (s.turns = [] → step s = exec i s) ∧
    (∀ rest, s.turns = .wait 0 :: rest → step s = exec i s)

/-- R43: the engine's step is enabled exactly when `BUSY = 1`; it writes the outcome of `Exec` in one step, changes no
operand, and stays enabled until it is taken (or reset comes). -/
def Obligations.CompleteWritesTheOutcomeInOneStep : Prop :=
  (∀ (s : State) (rest : List Turn), s.turns = .engine :: rest →
    (s.busy = false → step s = .next { s with turns := rest }) ∧
    (s.busy = true → step s = .next
      (match completionOf s.cmd s.opa s.opb s.opc with
      | .ret r0 r1 f =>
        { s with
          res0 := r0, res1 := r1, flag := f, err := false, errcode := 0, done := true, busy := false, turns := rest }
      | .raise code =>
        { s with
          res0 := 0, res1 := 0, flag := false, err := true, done := true, busy := false, turns := rest
          errcode := match code with
            | .illegalCmd => 1
            | .modZero => 2
            | .notInvertible => 3 }))) ∧
  (∀ s t : State, s.busy = true → (∀ rest, s.turns ≠ .reset :: rest) → step s = .next t →
    t.busy = true ∨ ∃ ts, t = complete (completionOf s.cmd s.opa s.opb s.opc) { s with turns := ts })

/-- R44: `Exec` on every word and all operands. -/
def Obligations.ExecFollowsTheCommandWord : Prop :=
  ∀ c a b m : Word, completionOf c a b m =
    if c.toNat / 16 ≠ 0 then .raise .illegalCmd
    else match c.toNat % 16 with
      | 1 => isprimeCompletion a.toNat
      | 2 => gcdCompletion a.toNat b.toNat
      | 3 => modinvCompletion a.toNat b.toNat
      | 4 => modexpCompletion a.toNat b.toNat m.toNat
      | 5 => factorCompletion a.toNat
      | _ => .raise .illegalCmd

/-- R108, R114: each fault code has exactly its cause, the causes exclude each other, and the codes are 1, 2, 3. -/
def Obligations.EachFaultHasExactlyItsCause : Prop :=
  (∀ c a b m : Word,
    (completionOf c a b m = .raise .illegalCmd ↔
      c.toNat / 16 ≠ 0 ∨ c.toNat % 16 = 0 ∨ 6 ≤ c.toNat % 16) ∧
    (completionOf c a b m = .raise .modZero ↔ (c = 4 ∧ m = 0) ∨ (c = 3 ∧ b = 0)) ∧
    (completionOf c a b m = .raise .notInvertible ↔ c = 3 ∧ b ≠ 0 ∧ Nat.gcd a.toNat b.toNat ≠ 1)) ∧
  FaultCode.errcode .illegalCmd = 1 ∧ FaultCode.errcode .modZero = 2 ∧ FaultCode.errcode .notInvertible = 3

/-- R113: a fault completion records the code, zeroes the results, keeps operands and CMD, and leaves the engine ready
for the next command at once. -/
def Obligations.FaultCompletionRecordsTheCode : Prop :=
  ∀ (s : State) (code : FaultCode) (w : Word) (rest : List Turn), s.busy = true →
    s.turns = .engine :: .write .cmd w :: rest → completionOf s.cmd s.opa s.opb s.opc = .raise code →
    ∃ t, t = { s with
        res0 := 0, res1 := 0, flag := false, err := true, errcode := code.errcode, done := true, busy := false
        turns := .write .cmd w :: rest } ∧
      step s = .next t ∧ ∃ u, step t = .next u ∧ u.cmd = w ∧ u.busy = true ∧ u.err = false ∧ u.errcode = 0

/-! ### The commands -/

/-- R69, R70: ISPRIME by trial division: 2, 3, or above 3 with no divisor among 2, 3 and the trial set. -/
def Obligations.IsprimeIsTrialDivision : Prop :=
  ∀ s : State, ∃ prime : Bool,
    (prime = true ↔ s.opa.toNat = 2 ∨ s.opa.toNat = 3 ∨
      (3 < s.opa.toNat ∧ ¬2 ∣ s.opa.toNat ∧ ¬3 ∣ s.opa.toNat ∧
        ∀ d, 5 ≤ d → d * d ≤ s.opa.toNat → d % 6 = 1 ∨ d % 6 = 5 → ¬d ∣ s.opa.toNat)) ∧
    exec .isprime s = .next { s with
      res0 := if prime then 1 else 0, res1 := 0, flag := prime, err := false, errcode := 0, done := true
      busy := false }

/-- R71: ISPRIME's RES0 and FLAG are 1 exactly for the prime numbers. -/
def Obligations.IsprimeIffPrime : Prop :=
  ∀ s : State, exec .isprime s = .next { s with
    res0 := if s.opa.toNat.Prime then 1 else 0, res1 := 0, flag := decide s.opa.toNat.Prime
    err := false, errcode := 0, done := true, busy := false }

/-- R76: GCD's result is the greatest natural that divides both operands, and 0 for two zeros; it never faults. -/
def Obligations.GcdIsTheGreatestCommonDivisor : Prop :=
  ∀ s : State, ∃ g : Nat, g < 2 ^ 32 ∧
    (s.opa = 0 ∧ s.opb = 0 → g = 0) ∧
    (¬(s.opa = 0 ∧ s.opb = 0) → g ∣ s.opa.toNat ∧ g ∣ s.opb.toNat ∧
      ∀ k, k ∣ s.opa.toNat → k ∣ s.opb.toNat → k ≤ g) ∧
    exec .gcd s = .next { s with
      res0 := BitVec.ofNat 32 g, res1 := 0, flag := false, err := false, errcode := 0, done := true, busy := false }

/-- R81, R83, R84: MODINV faults on the modulus 0 first, then without an inverse; modulo 1 the result is 0; otherwise
it is the one natural below the modulus whose product with OPA is 1, and OPA counts only modulo OPB. -/
def Obligations.ModinvIsTheUniqueInverse : Prop :=
  ∀ s : State,
    (s.opb = 0 → exec .modinv s = .next { s with
      res0 := 0, res1 := 0, flag := false, err := true, errcode := 2, done := true, busy := false }) ∧
    (s.opb ≠ 0 → Nat.gcd s.opa.toNat s.opb.toNat ≠ 1 → exec .modinv s = .next { s with
      res0 := 0, res1 := 0, flag := false, err := true, errcode := 3, done := true, busy := false }) ∧
    (s.opb = 1 → exec .modinv s = .next { s with
      res0 := 0, res1 := 0, flag := false, err := false, errcode := 0, done := true, busy := false }) ∧
    (1 < s.opb.toNat → Nat.gcd s.opa.toNat s.opb.toNat = 1 → ∃ x : Nat,
      x < s.opb.toNat ∧ s.opa.toNat * x % s.opb.toNat = 1 ∧
      (∀ y, y < s.opb.toNat → s.opa.toNat * y % s.opb.toNat = 1 → y = x) ∧
      exec .modinv s = .next { s with
        res0 := BitVec.ofNat 32 x, res1 := 0, flag := false, err := false, errcode := 0, done := true
        busy := false }) ∧
    (s.opb ≠ 0 →
      (modinvCompletion (s.opa.toNat % s.opb.toNat) s.opb.toNat : Completion) =
        modinvCompletion s.opa.toNat s.opb.toNat)

/-- R89, R91: MODEXP is the exact power modulo OPC, which fits the register, and faults exactly on the modulus 0. -/
def Obligations.ModexpIsTheExactPower : Prop :=
  ∀ s : State,
    (s.opc = 0 → exec .modexp s = .next { s with
      res0 := 0, res1 := 0, flag := false, err := true, errcode := 2, done := true, busy := false }) ∧
    (s.opc ≠ 0 → s.opa.toNat ^ s.opb.toNat % s.opc.toNat < 2 ^ 32 ∧ exec .modexp s = .next { s with
      res0 := BitVec.ofNat 32 (s.opa.toNat ^ s.opb.toNat % s.opc.toNat)
      res1 := 0, flag := false, err := false, errcode := 0, done := true, busy := false })

/-- R92: the exponent 0, the modulus 1 and the base 0. -/
def Obligations.ModexpOfZeroAndOne : Prop :=
  ∀ s : State, s.opc ≠ 0 → ∃ t, exec .modexp s = .next t ∧ t.err = false ∧
    (s.opb = 0 → t.res0 = if s.opc = 1 then 0 else 1) ∧
    (s.opc = 1 → t.res0 = 0) ∧
    (s.opa = 0 → s.opb ≠ 0 → t.res0 = 0)

/-- R93, R98: a base at or above the modulus is reduced, without a fault or a flag; with the exponent 1 the reduced
base is the result. -/
def Obligations.ModexpReducesTheBase : Prop :=
  ∀ s : State, s.opc ≠ 0 → ∃ t u,
    exec .modexp s = .next t ∧
    exec .modexp { s with opa := BitVec.ofNat 32 (s.opa.toNat % s.opc.toNat) } = .next u ∧
    t.res0 = u.res0 ∧ t.err = false ∧ u.err = false ∧ t.flag = false ∧ u.flag = false ∧
    (s.opb = 1 → t.res0.toNat = s.opa.toNat % s.opc.toNat)

/-- R97: for two different primes and exponents inverse modulo (p-1)(q-1), MODEXP undoes MODEXP: the message comes
back modulo N. -/
def Obligations.RsaRoundTripReturnsTheMessage : Prop :=
  ∀ (p q e d message : Nat) (s : State), p.Prime → q.Prime → p ≠ q → p * q < 2 ^ 32 → e < 2 ^ 32 → d < 2 ^ 32 →
    message < 2 ^ 32 → e * d ≡ 1 [MOD (p - 1) * (q - 1)] →
    s.opa = BitVec.ofNat 32 message → s.opb = BitVec.ofNat 32 e → s.opc = BitVec.ofNat 32 (p * q) →
    ∃ t u, exec .modexp s = .next t ∧
      exec .modexp { t with opa := t.res0, opb := BitVec.ofNat 32 d } = .next u ∧
      t.err = false ∧ u.err = false ∧ u.res0.toNat = message % (p * q) ∧
      (message < p * q → u.res0.toNat = message)

/-- R99, R100, R101: FACTOR answers the first proper divisor of the scan and its cofactor, or "not found". -/
def Obligations.FactorAnswersTheFirstProperDivisor : Prop :=
  ∀ s : State,
    (∃ p, 2 ≤ p ∧ p ≤ Nat.sqrt s.opa.toNat + 1 ∧ p ∣ s.opa.toNat ∧ p < s.opa.toNat ∧
      (∀ j, 2 ≤ j → j < p → ¬j ∣ s.opa.toNat) ∧
      exec .factor s = .next { s with
        res0 := BitVec.ofNat 32 p, res1 := BitVec.ofNat 32 (s.opa.toNat / p), flag := true
        err := false, errcode := 0, done := true, busy := false }) ∨
    ((∀ j, 2 ≤ j → j ≤ Nat.sqrt s.opa.toNat + 1 → ¬(j ∣ s.opa.toNat ∧ j < s.opa.toNat)) ∧
      exec .factor s = .next { s with
        res0 := 0, res1 := 0, flag := false, err := false, errcode := 0, done := true, busy := false })

/-- R102: what FACTOR's outcome says of N, and its agreement with ISPRIME. -/
def Obligations.FactorSplitsExactlyTheComposites : Prop :=
  ∀ s : State, ∃ t u, exec .factor s = .next t ∧ exec .isprime s = .next u ∧ t.err = false ∧
    (t.flag = false ↔ s.opa.toNat = 0 ∨ s.opa.toNat = 1 ∨ s.opa.toNat.Prime) ∧
    (t.flag = false → t.res0 = 0 ∧ t.res1 = 0) ∧
    (t.flag = true → t.res0.toNat = s.opa.toNat.minFac ∧ t.res1.toNat = s.opa.toNat / t.res0.toNat ∧
      t.res0.toNat * t.res1.toNat = s.opa.toNat ∧ 2 ≤ t.res0.toNat ∧ t.res0.toNat ≤ t.res1.toNat ∧
      t.res1.toNat < s.opa.toNat) ∧
    (t.flag = true ↔ 4 ≤ s.opa.toNat ∧ u.res0 = 0)

/-- R30: every command completes in every state; no completion changes an operand, CMD, or the world outside; which
commands write what. -/
def Obligations.EveryCommandCompletesWithinItsFrame : Prop :=
  ∀ (i : Instr) (s : State), ∃ t, exec i s = .next t ∧
    t.opa = s.opa ∧ t.opb = s.opb ∧ t.opc = s.opc ∧ t.cmd = s.cmd ∧ t.turns = s.turns ∧ t.returned = s.returned ∧
    t.busy = false ∧ t.done = true ∧
    (i ≠ .factor → t.res1 = 0) ∧ (i ≠ .isprime → i ≠ .factor → t.flag = false) ∧
    (i ≠ .modinv → i ≠ .modexp → t.err = false) ∧
    (t.err = false → t.errcode = 0) ∧
    (t.err = true → t.res0 = 0 ∧ t.res1 = 0 ∧ t.flag = false ∧ (t.errcode = 2 ∨ i = .modinv ∧ t.errcode = 3))

/-- R55, R10: the outcome of a command depends on the operand registers it reads and on nothing else of the state. -/
def Obligations.OutcomeDependsOnlyOnOperandsRead : Prop :=
  ∀ (i : Instr) (s s' : State), (∀ r ∈ operandRegs i, regValue r s = regValue r s') →
    ∃ t t', exec i s = .next t ∧ exec i s' = .next t' ∧ t.res0 = t'.res0 ∧ t.res1 = t'.res1 ∧
      t.flag = t'.flag ∧ t.err = t'.err ∧ t.errcode = t'.errcode

/-! ### Reset and the whole machine -/

/-- R32: after reset every register index reads 0. -/
def Obligations.ResetReadsZeroAtEveryIndex : Prop :=
  (∀ i : BitVec 3, regValue (Reg.ofIndex i) State.reset = 0) ∧
  State.reset.arch = ⟨0, 0, 0, 0, 0, 0, false, false, false, false, 0⟩

/-- R124, R125: reset drops the command in flight: every register takes its reset value, nothing is recorded and no
completion follows; no other step ends a command without completing it. That reset leaves the turns still to come and
the values already returned is the model's choice (log entry 12). -/
def Obligations.ResetDropsTheCommandInFlight : Prop :=
  (∀ (s : State) (rest : List Turn), s.turns = .reset :: rest → ∃ t, step s = .next t ∧
    t.arch = State.reset.arch ∧ t.turns = rest ∧ t.returned = s.returned ∧
    ∀ rest', step { t with turns := .engine :: rest' } = .next { t with turns := rest' }) ∧
  (∀ s t : State, s.busy = true → step s = .next t → t.busy = false →
    (∃ rest, s.turns = .reset :: rest) ∨
    ∃ ts, t = complete (completionOf s.cmd s.opa s.opb s.opc) { s with turns := ts })

/-- The invariant of the machine holds after reset. -/
def Obligations.InvariantHoldsAfterReset : Prop := Coherent State.reset

/-- Every step from a state that meets the invariant leads to one that does: STATUS keeps the invariants of R28, DONE
says that the results describe the command word in CMD (R24), and an idle block that has completed nothing since
reset still reads 0 in CMD and the results. -/
def Obligations.EveryStepKeepsTheInvariant : Prop :=
  ∀ s t : State, Coherent s → step s = .next t → Coherent t

/-- R28: in a state that meets the invariant STATUS reads one of seven values. -/
def Obligations.StatusReadsOneOfSevenValues : Prop :=
  ∀ s : State, Coherent s → regValue .status s ∈ ([0x00, 0x01, 0x02, 0x0A, 0x16, 0x26, 0x36] : List Word)

/-- R122: every sequence of turns has a defined effect: no run stops with a fault or a refusal. -/
def Obligations.EveryRunGoesOn : Prop :=
  ∀ (n : Nat) (s : State), ∃ t, run n s = .next t

/-- R21: an accepted command write sets BUSY, the completion and reset clear it, nothing else changes it, and while it
is set every write is ignored. -/
def Obligations.BusyChangesOnlyAsStated : Prop :=
  ∀ s t : State, step s = .next t →
    (∀ v rest, s.busy = false → s.turns = .write .cmd v :: rest → t.busy = true) ∧
    (∀ rest, s.turns = .engine :: rest → t.busy = false) ∧
    (∀ rest, s.turns = .reset :: rest → t.busy = false) ∧
    (s.busy = false → t.busy = true → ∃ v rest, s.turns = .write .cmd v :: rest ∧ t.cmd = v) ∧
    (s.busy = true → t.busy = false → (∃ rest, s.turns = .reset :: rest) ∨
      ∃ ts, t = complete (completionOf s.cmd s.opa s.opb s.opc) { s with turns := ts }) ∧
    (∀ r v rest, s.busy = true → s.turns = .write r v :: rest → t = { s with turns := rest })

/-- R115, R45: with no command in flight, the record of the last completion changes only by the acceptance of the next
command or by reset. -/
def Obligations.OutcomeStaysUntilAcceptanceOrReset : Prop :=
  ∀ s t : State, s.busy = false → step s = .next t → (∀ rest, s.turns ≠ .reset :: rest) →
    (∀ v rest, s.turns ≠ .write .cmd v :: rest) →
    t.res0 = s.res0 ∧ t.res1 = s.res1 ∧ t.busy = s.busy ∧ t.done = s.done ∧ t.err = s.err ∧ t.flag = s.flag ∧
      t.errcode = s.errcode ∧ t.cmd = s.cmd

/-- R13: which agent writes which register. -/
def Obligations.RegistersChangeOnlyByTheirWriters : Prop :=
  ∀ s t : State, step s = .next t → (∀ rest, s.turns ≠ .reset :: rest) →
    (t.opa ≠ s.opa → s.busy = false ∧ ∃ rest, s.turns = .write .opa t.opa :: rest) ∧
    (t.opb ≠ s.opb → s.busy = false ∧ ∃ rest, s.turns = .write .opb t.opb :: rest) ∧
    (t.opc ≠ s.opc → s.busy = false ∧ ∃ rest, s.turns = .write .opc t.opc :: rest) ∧
    (t.cmd ≠ s.cmd → s.busy = false ∧ ∃ rest, s.turns = .write .cmd t.cmd :: rest) ∧
    (t.res0 ≠ s.res0 ∨ t.res1 ≠ s.res1 → s.busy = true ∧ t.busy = false ∧ t.done = true)

/-- R67: the same command word on unchanged operands gives the same results and STATUS again. -/
def Obligations.ReissueGivesTheSameOutcome : Prop :=
  ∀ (s : State) (w : Word) (rest : List Turn), s.busy = false →
    s.turns = [.write .cmd w, .engine, .write .cmd w, .engine] ++ rest →
    ∃ t u, run 2 s = .next t ∧ run 2 t = .next u ∧
      u = { t with turns := rest }

/-! ### WAIT, the signal binding, the host notation -/

/-- R62: WAIT reads STATUS until `BUSY = 0`. How many reads find `BUSY = 1` is the model's open choice (log entry 2);
the statement holds for every number of them. -/
def Obligations.WaitEndsWithTheCompletedCommand : Prop :=
  ∀ (n : Nat) (s : State) (rest : List Turn), s.turns = .wait n :: rest →
    (s.busy = false → step s = .next { s with turns := rest, returned := s.returned ++ [regValue .status s] }) ∧
    (s.busy = true → ∃ t, run (n + 2) s = .next t ∧ t.turns = rest ∧
      quiescent t = true ∧ t.arch = (complete (completionOf s.cmd s.opa s.opb s.opc) s).arch ∧
      t.returned = s.returned ++ List.replicate n (regValue .status s) ++ [regValue .status t])

/-- R51, R52, R124: a clock edge does what one or two turns of the machine do: with `rst` the reset event, and then a
read if one is presented; otherwise the transaction and then the completion due at the edge. That a read at an edge with
`rst` comes after the reset, and so returns the reset value at the first such edge too, is the model's reading of R124
(log entry 15); at that edge the port still shows the value before it, as R51 says. -/
def Obligations.ClockEdgeIsTransactionThenCompletion : Prop :=
  ∀ (p : Pins) (due : Bool) (s : State) (ts : List Turn),
    ts = (if p.rst then .reset :: (if p.sel && !p.we then [.read (Reg.ofIndex p.addr)] else []) else
      (if p.sel then [if p.we then .write (Reg.ofIndex p.addr) p.wdata else .read (Reg.ofIndex p.addr)] else []) ++
      (if s.busy && due then [.engine] else [])) →
    run ts.length { s with turns := ts ++ s.turns } = clockEdge p due s

/-- R52: a read at an edge returns the value before the edge; a completion due at an edge takes place whatever
transaction the pins present, on the operands before the edge. R124: `rst` gives the reset state whatever the pins
present and whatever is due, and a read at such an edge returns the reset value (that it does at the first edge with
`rst` too is log entry 15). R51: the port shows the value before the edge, so the reset value after an edge with `rst`.
That reset leaves the values already returned is the model's choice (log entry 12). -/
def Obligations.EdgeActsOnTheStateBeforeIt : Prop :=
  (∀ (p : Pins) (due : Bool) (s : State), p.rst = false → p.sel = true → p.we = false →
    ∃ t, clockEdge p due s = .next t ∧ t.returned = s.returned ++ [rdata p s] ∧
      rdata p s = regValue (Reg.ofIndex p.addr) s) ∧
  (∀ (p : Pins) (s : State), p.rst = false → s.busy = true →
    ∃ t, clockEdge p true s = .next t ∧ t.arch = (complete (completionOf s.cmd s.opa s.opb s.opc) s).arch) ∧
  (∀ (p : Pins) (due : Bool) (s : State), p.rst = true →
    ∃ t, clockEdge p due s = .next t ∧ t.arch = State.reset.arch ∧
      rdata p s = regValue (Reg.ofIndex p.addr) s ∧ (∀ q : Pins, rdata q t = 0) ∧
      t.returned = s.returned ++ (if p.sel = true ∧ p.we = false then [0] else []))

/-- R52, R7: a command accepted at an edge completes exactly LAT edges later, whatever the host does on the bus
meanwhile (reset aside), with the outcome of the operands at acceptance; until then it is BUSY and the registers
keep their values. LAT is the free value of log entry 3: the statement holds for every value of it. -/
def Obligations.CommandCompletesExactlyLatEdgesLater : Prop :=
  ∀ (c : Clocked) (start : Pins) (pins : List Pins), c.block.busy = false →
    start.rst = false → start.sel = true → start.we = true → start.addr = 3 → (∀ p ∈ pins, p.rst = false) →
    (pins.length < latency (acceptCommand start.wdata c.block) →
      ∃ c', Clocked.edges (start :: pins) c = .next c' ∧
        c'.block.arch = (acceptCommand start.wdata c.block).arch) ∧
    (pins.length = latency (acceptCommand start.wdata c.block) →
      ∃ c', Clocked.edges (start :: pins) c = .next c' ∧
        c'.block.arch = (complete (completionOf start.wdata c.block.opa c.block.opb c.block.opc)
          (acceptCommand start.wdata c.block)).arch)

/-- R62, R68: at every width a listing is assembled exactly when `WR` names OPA, OPB, OPC or CMD with a value in
`[0, 2^W)` and `RD` names one of the seven registers, and then its k-th turn is the transaction that the k-th statement
stands for. That `RD` may not name the reserved index is the model's choice (log entry 13), and so is that one
ill-formed statement refuses the whole listing (log entry 16); the length of a `WAIT` is open (log entry 2). -/
def Obligations.AssemblyRefusesExactlyIllFormedListings : Prop :=
  ∀ (W : Nat) (polls : Nat → Nat) (listing : List HostStmt), Config.WidthAllowed W →
    ((∃ ts, assemble polls listing W = some ts) ↔
      (∀ r v, HostStmt.wr r v ∈ listing → (r = .opa ∨ r = .opb ∨ r = .opc ∨ r = .cmd) ∧ 0 ≤ v ∧ v < 2 ^ W) ∧
      (∀ r, HostStmt.rd r ∈ listing → r ≠ .reserved)) ∧
    (∀ ts, assemble polls listing W = some ts → ts.length = listing.length ∧
      ∀ (k : Nat) (st : HostStmt), listing[k]? = some st → ts[k]? = some (
        match st with
        | .wr r v => .write r (BitVec.ofInt W v)
        | .cmd .isprime => .write .cmd 1#W
        | .cmd .gcd => .write .cmd 2#W
        | .cmd .modinv => .write .cmd 3#W
        | .cmd .modexp => .write .cmd 4#W
        | .cmd .factor => .write .cmd 5#W
        | .rd r => .read r
        | .wait => .wait (polls (k + 1)) : Turn W))

/-- R64: ENCRYPT and DECRYPT are MODEXP with the key's parts in their places. -/
def Obligations.EncryptAndDecryptAreModexp : Prop :=
  ∀ message value n e d : Option Int,
    (Shorthand.encrypt message n e).expand = (Shorthand.modexp message e n).expand ∧
    (Shorthand.decrypt value n d).expand = (Shorthand.modexp value d n).expand

/-! ### Every width -/

/-- R65: at every width a command's word is its opcode zero-extended, bits `W-1:4` zero, and its row's mask is W ones;
the printed table is the instance W = 32. -/
def Obligations.CommandWordIsTheOpcodeZeroExtended : Prop :=
  (∀ (W : Nat) (i : Instr), Config.WidthAllowed W →
    ((encode i : Word W).toNat =
      match i with
      | .isprime => 1
      | .gcd => 2
      | .modinv => 3
      | .modexp => 4
      | .factor => 5) ∧
    (∀ k, 4 ≤ k → (encode i : Word W).getLsbD k = false) ∧
    ∃ row ∈ opcodeTable W, row.instr = i ∧ row.pattern = encode i ∧ ∀ k, k < W → row.mask.getLsbD k = true) ∧
  opcodeTable =
    [⟨.isprime, 0x00000001, 0xFFFFFFFF⟩, ⟨.gcd, 0x00000002, 0xFFFFFFFF⟩, ⟨.modinv, 0x00000003, 0xFFFFFFFF⟩,
      ⟨.modexp, 0x00000004, 0xFFFFFFFF⟩, ⟨.factor, 0x00000005, 0xFFFFFFFF⟩]

/-- The host's fixed names are the width 32 of the model that takes W as an argument (R5, R33). -/
def Obligations.HostNamesAreTheMachineAtWidth32 : Prop :=
  (∀ (i : Instr) (s : State), exec i s = execAt i s) ∧ (∀ s : State, step s = stepAt s) ∧
    State.reset = State.resetAt 32 ∧ ∀ allowed : Config.WidthAllowed 32, Sys2Proof.core = machineAt 32 allowed

/-- R10 at every width W >= 8: each command completes with the exact result on the naturals its operand registers hold,
which fits a register, or with the fault its rule names, and changes nothing else. -/
def Obligations.CommandsAreExactAtEveryWidth : Prop :=
  ∀ (W : Nat) (s : State W) (a b m : Nat), Config.WidthAllowed W →
    a = s.opa.toNat → b = s.opb.toNat → m = s.opc.toNat →
    ∃ ended : Instr → Completion W, (∀ i, execAt i s = .next (complete (ended i) s)) ∧
      ended .isprime = .ret (if a.Prime then 1#W else 0#W) 0#W (decide a.Prime) ∧
      (∃ g, g.toNat = Nat.gcd a b ∧ ended .gcd = .ret g 0#W false) ∧
      (b = 0 → ended .modinv = .raise .modZero) ∧
      (b ≠ 0 → Nat.gcd a b ≠ 1 → ended .modinv = .raise .notInvertible) ∧
      (b ≠ 0 → Nat.gcd a b = 1 → ∃ x : Word W, ended .modinv = .ret x 0#W false ∧ x.toNat < b ∧
        a * x.toNat % b = 1 % b) ∧
      (m = 0 → ended .modexp = .raise .modZero) ∧
      (m ≠ 0 → ∃ r : Word W, ended .modexp = .ret r 0#W false ∧ r.toNat = a ^ b % m) ∧
      (a = 0 ∨ a = 1 ∨ a.Prime → ended .factor = .ret 0#W 0#W false) ∧
      (a ≠ 0 → a ≠ 1 → ¬a.Prime → ∃ p q : Word W, ended .factor = .ret p q true ∧ p.toNat = a.minFac ∧
        p.toNat * q.toNat = a)

/-- A machine of a greater width moves in step with one of width W >= 8: the same turns on zero-extended registers lead
to the zero-extended next state, so a greater width changes no result, no STATUS and no verdict on a command word
(92_eei_decisions.md D1). -/
def Obligations.WiderMachineMovesInStep : Prop :=
  ∀ (W V : Nat), Config.WidthAllowed W → W ≤ V →
    State.widen V (State.resetAt W) = State.resetAt V ∧
    ∀ s t : State W, stepAt s = .next t → stepAt (State.widen V s) = .next (State.widen V t)
end

