-- ==== Sys2Proof/Laws/Arith.lean ====
section
/-! SUPPORT. One spec lemma for each arithmetic function: what the loops compute. -/

namespace Sys2Proof.Machine

theorem lt_two_pow_bitlen (n : Nat) : n < 2 ^ bitlen n := by
  unfold bitlen
  split
  · subst n; decide
  · exact Nat.lt_log2_self

theorem bitlen_half {e : Nat} (h : e ≠ 0) : bitlen e = bitlen (e / 2) + 1 := by
  unfold bitlen
  rw [if_neg h]
  split
  · have : e = 1 := by omega
    subst this; decide
  · rw [Nat.log2_def, if_pos (by omega)]

theorem isqrtDigits_spec (n k r : Nat) (lo : r * r ≤ n) (hi : n < (r + 2 ^ k) * (r + 2 ^ k)) :
    isqrtDigits n k r * isqrtDigits n k r ≤ n ∧ n < (isqrtDigits n k r + 1) * (isqrtDigits n k r + 1) := by
  induction k generalizing r with
  | zero => exact ⟨lo, by simpa [isqrtDigits] using hi⟩
  | succ k ih =>
    simp only [isqrtDigits]
    split
    · next h => exact ih _ h (by rw [Nat.pow_succ] at hi; rwa [Nat.add_assoc, ← Nat.mul_two])
    · next h => exact ih _ lo (by omega)

/-- `isqrt n` is the greatest natural whose square does not exceed `n` (00_scope.md R11). -/
theorem isqrt_spec (n : Nat) : isqrt n * isqrt n ≤ n ∧ n < (isqrt n + 1) * (isqrt n + 1) := by
  refine isqrtDigits_spec n (bitlen n) 0 (by omega) ?_
  have h := lt_two_pow_bitlen n
  rw [Nat.zero_add]
  exact Nat.lt_of_lt_of_le h (Nat.le_mul_of_pos_left _ (by omega))

theorem le_isqrt_iff (d n : Nat) : d ≤ isqrt n ↔ d * d ≤ n := by
  obtain ⟨lo, hi⟩ := isqrt_spec n
  constructor
  · exact fun h => Nat.le_trans (Nat.mul_le_mul h h) lo
  · intro h
    by_contra hd
    have : (isqrt n + 1) * (isqrt n + 1) ≤ d * d := Nat.mul_le_mul (by omega) (by omega)
    omega

theorem divides_iff (d n : Nat) : divides d n = true ↔ 0 < d ∧ d ∣ n := by
  simp [divides, Nat.dvd_iff_mod_eq_zero]

/-- The scan answers the first candidate that passes the test ... -/
theorem firstHit_some {test : Nat → Bool} {lo last count d : Nat} (hr : lo + count = last + 1)
    (h : firstHit test last count = some d) :
    test d = true ∧ lo ≤ d ∧ d ≤ last ∧ ∀ j, lo ≤ j → j < d → test j = false := by
  induction count generalizing lo with
  | zero => simp [firstHit] at h
  | succ count ih =>
    have hlo : last - count = lo := by omega
    rw [firstHit, hlo] at h
    cases ht : test lo with
    | true =>
      rw [ht] at h
      obtain rfl : lo = d := by simpa using h
      exact ⟨ht, Nat.le_refl _, by omega, fun j _ _ => by omega⟩
    | false =>
      rw [ht] at h
      obtain ⟨h1, h2, h3, h4⟩ := ih (lo := lo + 1) (by omega) (by simpa using h)
      refine ⟨h1, by omega, h3, fun j hj hd => ?_⟩
      rcases Nat.eq_or_lt_of_le hj with rfl | hlt
      · exact ht
      · exact h4 j hlt hd

/-- ... and nothing exactly when none of them passes. -/
theorem firstHit_none {test : Nat → Bool} {lo last count : Nat} (hr : lo + count = last + 1)
    (h : firstHit test last count = none) : ∀ j, lo ≤ j → j ≤ last → test j = false := by
  induction count generalizing lo with
  | zero => intro j _ _; omega
  | succ count ih =>
    have hlo : last - count = lo := by omega
    rw [firstHit, hlo] at h
    cases ht : test lo with
    | true => rw [ht] at h; simp at h
    | false =>
      rw [ht] at h
      intro j hj hl
      rcases Nat.eq_or_lt_of_le hj with rfl | hlt
      · exact ht
      · exact ih (lo := lo + 1) (by omega) (by simpa using h) j hlt hl

/-- ISPRIME's test is the spec's trial division: 2, 3, or above 3 with no divisor among 2, 3 and the trial set. -/
theorem isPrimeNat_iff (n : Nat) : isPrimeNat n = true ↔
    n = 2 ∨ n = 3 ∨ (3 < n ∧ ¬2 ∣ n ∧ ¬3 ∣ n ∧
      ∀ d, 5 ≤ d → d * d ≤ n → d % 6 = 1 ∨ d % 6 = 5 → ¬d ∣ n) := by
  unfold isPrimeNat
  split
  · simp; omega
  split
  · simp; omega
  split
  · simp only [Bool.false_eq_true, false_iff, Nat.dvd_iff_mod_eq_zero]; omega
  next h1 h2 h3 =>
  have core : (firstHit (fun d => trialForm d && divides d n) (isqrt n) (isqrt n - 4)).isNone = true ↔
      ∀ d, 5 ≤ d → d * d ≤ n → d % 6 = 1 ∨ d % 6 = 5 → ¬d ∣ n := by
    have hit (d : Nat) (hd : 5 ≤ d) :
        (trialForm d && divides d n) = true ↔ (d % 6 = 1 ∨ d % 6 = 5) ∧ d ∣ n := by
      rw [Bool.and_eq_true, divides_iff]
      simp [trialForm]; omega
    by_cases hs : isqrt n ≤ 4
    · rw [show isqrt n - 4 = 0 by omega]
      simp only [firstHit, Option.isNone_none, true_iff]
      intro d hd hq
      have := (le_isqrt_iff d n).2 hq
      omega
    · have hr : 5 + (isqrt n - 4) = isqrt n + 1 := by omega
      cases hf : firstHit (fun d => trialForm d && divides d n) (isqrt n) (isqrt n - 4) with
      | none =>
        simp only [Option.isNone_none, true_iff]
        intro d hd hq hm hdvd
        have h := firstHit_none hr hf d hd ((le_isqrt_iff d n).2 hq)
        have h' := (hit d hd).2 ⟨hm, hdvd⟩
        simp_all
      | some d =>
        obtain ⟨ht, hlo, hle, -⟩ := firstHit_some hr hf
        have := (hit d hlo).1 ht
        simp only [Option.isNone_some, Bool.false_eq_true, false_iff]
        exact fun hall => hall d hlo ((le_isqrt_iff d n).1 hle) this.1 this.2
  rw [core]
  simp only [Nat.dvd_iff_mod_eq_zero] at *
  constructor
  · exact fun h => .inr (.inr ⟨by omega, by omega, by omega, h⟩)
  · rintro (h | h | h)
    · omega
    · omega
    · exact h.2.2.2

/-- Euclid's loop, with enough passes, answers the greatest common divisor. -/
theorem euclidLoop_eq (fuel a b : Nat) (h : b < fuel) : euclidLoop fuel a b = Nat.gcd a b := by
  induction fuel generalizing a b with
  | zero => omega
  | succ fuel ih =>
    rw [euclidLoop]
    split
    · next hb => subst hb; simp
    · next hb =>
      have : a % b < b := Nat.mod_lt _ (by omega)
      rw [ih b (a % b) (by omega), Nat.gcd_comm b, ← Nat.gcd_rec, Nat.gcd_comm]

theorem gcdNat_eq (a b : Nat) : gcdNat a b = Nat.gcd a b := euclidLoop_eq _ _ _ (by omega)

/-- The extended loop answers the gcd of its remainders, and keeps each remainder congruent to its coefficient times
`a`. -/
theorem extendedLoop_spec (a m : Int) (fuel r0 r1 : Nat) (t0 t1 : Int) (h : r1 < fuel)
    (h0 : m ∣ t0 * a - r0) (h1 : m ∣ t1 * a - r1) :
    (extendedLoop fuel r0 r1 t0 t1).1 = Nat.gcd r0 r1 ∧
      m ∣ (extendedLoop fuel r0 r1 t0 t1).2 * a - (extendedLoop fuel r0 r1 t0 t1).1 := by
  induction fuel generalizing r0 r1 t0 t1 with
  | zero => omega
  | succ fuel ih =>
    rw [extendedLoop]
    split
    · next hr => subst hr; simpa using h0
    · next hr =>
      have hmod : r0 - r0 / r1 * r1 = r0 % r1 := by
        have := Nat.div_add_mod r0 r1
        rw [Nat.mul_comm] at this
        omega
      have hlt : r0 % r1 < r1 := Nat.mod_lt _ (by omega)
      have hcast : ((r0 % r1 : Nat) : Int) = r0 - (r0 / r1 : Nat) * r1 := by
        have := Nat.div_add_mod r0 r1
        rw [eq_sub_iff_add_eq]
        exact_mod_cast (by rw [Nat.mul_comm] at this; omega : r0 % r1 + r0 / r1 * r1 = r0)
      simp only [hmod]
      have key : m ∣ (t0 - (r0 / r1 : Nat) * t1) * a - ((r0 % r1 : Nat) : Int) := by
        rw [hcast]
        have : (t0 - (r0 / r1 : Nat) * t1) * a - ((r0 : Int) - (r0 / r1 : Nat) * r1)
            = (t0 * a - r0) - (r0 / r1 : Nat) * (t1 * a - r1) := by ring
        rw [this]
        exact dvd_sub h0 (Dvd.dvd.mul_left h1 _)
      have := ih r1 (r0 % r1) t1 _ (by omega) h1 key
      rw [Nat.gcd_comm r1, ← Nat.gcd_rec, Nat.gcd_comm] at this
      exact this

/-- Square-and-multiply, with enough passes, multiplies the accumulator by the power, modulo `m`. -/
theorem powerLoop_eq (m fuel acc b e : Nat) (h : bitlen e ≤ fuel) (ha : acc % m = acc) :
    powerLoop m fuel acc b e = acc * b ^ e % m := by
  induction fuel generalizing acc b e with
  | zero =>
    have : e = 0 := by
      by_contra he
      have := bitlen_half he
      omega
    subst this
    simp [powerLoop, ha]
  | succ fuel ih =>
    rw [powerLoop]
    split
    · next he => subst he; simp [ha]
    · next he =>
      have hb := bitlen_half he
      have hsq : (b * b % m) ^ (e / 2) % m = b ^ (2 * (e / 2)) % m := by
        rw [Nat.pow_mod, Nat.mod_mod, ← Nat.pow_mod, ← Nat.pow_two, ← Nat.pow_mul]
      split
      · next hodd =>
        rw [ih _ _ _ (by omega) (Nat.mod_mod _ _), Nat.mul_mod, hsq, Nat.mod_mod, ← Nat.mul_mod, Nat.mul_assoc,
          ← Nat.pow_succ', show (2 * (e / 2)).succ = e by omega]
      · next heven =>
        rw [ih _ _ _ (by omega) ha, Nat.mul_mod, hsq, ← Nat.mul_mod, show 2 * (e / 2) = e by omega]

theorem modexpNat_eq (base exp m : Nat) : modexpNat base exp m = base ^ exp % m := by
  unfold modexpNat
  rw [powerLoop_eq _ _ _ _ _ (Nat.le_refl _) (Nat.mod_mod _ _), Nat.mul_mod, Nat.mod_mod, Nat.pow_mod, Nat.mod_mod,
    ← Nat.pow_mod, ← Nat.mul_mod, Nat.one_mul]

/-- FACTOR's scan answers the least divisor from 2 up among the candidates, a proper one ... -/
theorem leastProperDivisor_some {n p : Nat} (h : leastProperDivisor n = some p) :
    2 ≤ p ∧ p ≤ isqrt n + 1 ∧ p ∣ n ∧ p < n ∧ ∀ j, 2 ≤ j → j < p → ¬j ∣ n := by
  obtain ⟨ht, hlo, hle, hmin⟩ := firstHit_some (lo := 2) (by omega) h
  rw [Bool.and_eq_true, divides_iff, decide_eq_true_iff] at ht
  refine ⟨hlo, hle, ht.1.2, ht.2, fun j hj hp hd => ?_⟩
  have hf := hmin j hj hp
  have : divides j n = true := (divides_iff j n).2 ⟨by omega, hd⟩
  simp only [this, Bool.true_and, decide_eq_false_iff_not] at hf
  omega

/-- ... and nothing when no candidate is a proper divisor. -/
theorem leastProperDivisor_none {n : Nat} (h : leastProperDivisor n = none) :
    ∀ i, 2 ≤ i → i ≤ isqrt n + 1 → ¬(i ∣ n ∧ i < n) := by
  rintro i hi hle ⟨hd, hlt⟩
  have hf := firstHit_none (lo := 2) (by omega) h i hi hle
  have : divides i n = true := (divides_iff i n).2 ⟨by omega, hd⟩
  simp only [this, Bool.true_and, decide_eq_false_iff_not] at hf
  omega

end Sys2Proof.Machine
end

