-- ==== Sys2Proof/Laws/PerInstr.lean ====
section
/-! SUPPORT. Statements made of every command, one lemma a constructor. -/

namespace Sys2Proof.Laws

/-- At every width the encoded word of a command has the two fields that 30_encoding.md R53, R56 and R65 give it: RSVD
is 0, OPCODE is the command's number, and the word is one of the opcode map's. -/
def Encoding.Statement (i : Instr) : Prop :=
  i.wf = true ∧ ∀ W : Nat, Config.WidthAllowed W →
    rsvdField (encode i : Word W) = 0 ∧ opcodeField (encode i : Word W) = i.opcode ∧
      commandWordWf (encode i : Word W) = true ∧
      (⟨i, encode i, BitVec.allOnes W⟩ : OpcodeRow W) ∈ opcodeTable W

/-- The encoded word holds the opcode's number. -/
theorem encode_eq_ofNat {W : Nat} (i : Instr) : (encode i : Word W) = BitVec.ofNat W i.opcode.toNat :=
  (BitVec.ofNat_toNat W i.opcode).symm

/-- The field RSVD of an opcode that is zero-extended is 0, at every width. -/
theorem rsvdField_encode {W : Nat} (i : Instr) : rsvdField (encode i : Word W) = 0 := by
  apply BitVec.eq_of_getLsbD_eq
  intro k hk
  simp only [rsvdField, encode, BitVec.getLsbD_extractLsb', BitVec.getLsbD_setWidth]
  simp

/-- The field OPCODE of a zero-extended opcode is the opcode. -/
theorem opcodeField_encode {W : Nat} (h : 4 ≤ W) (i : Instr) : opcodeField (encode i : Word W) = i.opcode := by
  apply BitVec.eq_of_getLsbD_eq
  intro k hk
  simp only [opcodeField, encode, BitVec.getLsbD_extractLsb', BitVec.getLsbD_setWidth, Nat.zero_add]
  simp [hk, show k < W by omega]

/-- Both fields of a command's word at once, and that they make a legal word. -/
theorem commandWordWf_encode {W : Nat} (h : 4 ≤ W) (i : Instr) : commandWordWf (encode i : Word W) = true := by
  have hr : (encode i : Word W).extractLsb' 4 (W - 4) = 0 := rsvdField_encode i
  have ho : (encode i : Word W).extractLsb' 0 4 = i.opcode := opcodeField_encode h i
  simp only [commandWordWf, rsvdZero, opcodeAssigned, hr, ho]
  cases i <;> simp [Instr.opcode]

theorem Encoding.isprime : Encoding.Statement .isprime :=
  ⟨rfl, fun W h => ⟨rsvdField_encode _, opcodeField_encode (by omega) _, commandWordWf_encode (by omega) _, by
    simp [opcodeTable, encode_eq_ofNat, Instr.opcode]⟩⟩

theorem Encoding.gcd : Encoding.Statement .gcd :=
  ⟨rfl, fun W h => ⟨rsvdField_encode _, opcodeField_encode (by omega) _, commandWordWf_encode (by omega) _, by
    simp [opcodeTable, encode_eq_ofNat, Instr.opcode]⟩⟩

theorem Encoding.modinv : Encoding.Statement .modinv :=
  ⟨rfl, fun W h => ⟨rsvdField_encode _, opcodeField_encode (by omega) _, commandWordWf_encode (by omega) _, by
    simp [opcodeTable, encode_eq_ofNat, Instr.opcode]⟩⟩

theorem Encoding.modexp : Encoding.Statement .modexp :=
  ⟨rfl, fun W h => ⟨rsvdField_encode _, opcodeField_encode (by omega) _, commandWordWf_encode (by omega) _, by
    simp [opcodeTable, encode_eq_ofNat, Instr.opcode]⟩⟩

theorem Encoding.factor : Encoding.Statement .factor :=
  ⟨rfl, fun W h => ⟨rsvdField_encode _, opcodeField_encode (by omega) _, commandWordWf_encode (by omega) _, by
    simp [opcodeTable, encode_eq_ofNat, Instr.opcode]⟩⟩

end Sys2Proof.Laws
end

