-- ==== Sys2Proof/Laws/State.lean ====
section
/-! SUPPORT. One lemma for each field under each named update of the state, so that no later proof unfolds a record. -/

namespace Sys2Proof.Machine

variable {W : Nat}

/-! ### regRead -/

@[simp] theorem regRead_opa (r : Reg) (s : State W) : (regRead r s).opa = s.opa := rfl
@[simp] theorem regRead_opb (r : Reg) (s : State W) : (regRead r s).opb = s.opb := rfl
@[simp] theorem regRead_opc (r : Reg) (s : State W) : (regRead r s).opc = s.opc := rfl
@[simp] theorem regRead_cmd (r : Reg) (s : State W) : (regRead r s).cmd = s.cmd := rfl
@[simp] theorem regRead_res0 (r : Reg) (s : State W) : (regRead r s).res0 = s.res0 := rfl
@[simp] theorem regRead_res1 (r : Reg) (s : State W) : (regRead r s).res1 = s.res1 := rfl
@[simp] theorem regRead_busy (r : Reg) (s : State W) : (regRead r s).busy = s.busy := rfl
@[simp] theorem regRead_done (r : Reg) (s : State W) : (regRead r s).done = s.done := rfl
@[simp] theorem regRead_err (r : Reg) (s : State W) : (regRead r s).err = s.err := rfl
@[simp] theorem regRead_flag (r : Reg) (s : State W) : (regRead r s).flag = s.flag := rfl
@[simp] theorem regRead_errcode (r : Reg) (s : State W) : (regRead r s).errcode = s.errcode := rfl
@[simp] theorem regRead_turns (r : Reg) (s : State W) : (regRead r s).turns = s.turns := rfl
@[simp] theorem regRead_returned (r : Reg) (s : State W) : (regRead r s).returned = s.returned ++ [regValue r s] := rfl

/-! ### acceptCommand -/

@[simp] theorem acceptCommand_opa (v : Word W) (s : State W) : (acceptCommand v s).opa = s.opa := rfl
@[simp] theorem acceptCommand_opb (v : Word W) (s : State W) : (acceptCommand v s).opb = s.opb := rfl
@[simp] theorem acceptCommand_opc (v : Word W) (s : State W) : (acceptCommand v s).opc = s.opc := rfl
@[simp] theorem acceptCommand_cmd (v : Word W) (s : State W) : (acceptCommand v s).cmd = v := rfl
@[simp] theorem acceptCommand_res0 (v : Word W) (s : State W) : (acceptCommand v s).res0 = s.res0 := rfl
@[simp] theorem acceptCommand_res1 (v : Word W) (s : State W) : (acceptCommand v s).res1 = s.res1 := rfl
@[simp] theorem acceptCommand_busy (v : Word W) (s : State W) : (acceptCommand v s).busy = true := rfl
@[simp] theorem acceptCommand_done (v : Word W) (s : State W) : (acceptCommand v s).done = false := rfl
@[simp] theorem acceptCommand_err (v : Word W) (s : State W) : (acceptCommand v s).err = false := rfl
@[simp] theorem acceptCommand_flag (v : Word W) (s : State W) : (acceptCommand v s).flag = false := rfl
@[simp] theorem acceptCommand_errcode (v : Word W) (s : State W) : (acceptCommand v s).errcode = 0 := rfl
@[simp] theorem acceptCommand_turns (v : Word W) (s : State W) : (acceptCommand v s).turns = s.turns := rfl
@[simp] theorem acceptCommand_returned (v : Word W) (s : State W) : (acceptCommand v s).returned = s.returned := rfl

/-! ### normalCompletion -/

@[simp] theorem normalCompletion_opa (r0 r1 : Word W) (f : Bool) (s : State W) : (normalCompletion r0 r1 f s).opa = s.opa := rfl
@[simp] theorem normalCompletion_opb (r0 r1 : Word W) (f : Bool) (s : State W) : (normalCompletion r0 r1 f s).opb = s.opb := rfl
@[simp] theorem normalCompletion_opc (r0 r1 : Word W) (f : Bool) (s : State W) : (normalCompletion r0 r1 f s).opc = s.opc := rfl
@[simp] theorem normalCompletion_cmd (r0 r1 : Word W) (f : Bool) (s : State W) : (normalCompletion r0 r1 f s).cmd = s.cmd := rfl
@[simp] theorem normalCompletion_res0 (r0 r1 : Word W) (f : Bool) (s : State W) : (normalCompletion r0 r1 f s).res0 = r0 := rfl
@[simp] theorem normalCompletion_res1 (r0 r1 : Word W) (f : Bool) (s : State W) : (normalCompletion r0 r1 f s).res1 = r1 := rfl
@[simp] theorem normalCompletion_busy (r0 r1 : Word W) (f : Bool) (s : State W) : (normalCompletion r0 r1 f s).busy = false := rfl
@[simp] theorem normalCompletion_done (r0 r1 : Word W) (f : Bool) (s : State W) : (normalCompletion r0 r1 f s).done = true := rfl
@[simp] theorem normalCompletion_err (r0 r1 : Word W) (f : Bool) (s : State W) : (normalCompletion r0 r1 f s).err = false := rfl
@[simp] theorem normalCompletion_flag (r0 r1 : Word W) (f : Bool) (s : State W) : (normalCompletion r0 r1 f s).flag = f := rfl
@[simp] theorem normalCompletion_errcode (r0 r1 : Word W) (f : Bool) (s : State W) : (normalCompletion r0 r1 f s).errcode = 0 := rfl
@[simp] theorem normalCompletion_turns (r0 r1 : Word W) (f : Bool) (s : State W) : (normalCompletion r0 r1 f s).turns = s.turns := rfl
@[simp] theorem normalCompletion_returned (r0 r1 : Word W) (f : Bool) (s : State W) : (normalCompletion r0 r1 f s).returned = s.returned := rfl

/-! ### faultCompletion -/

@[simp] theorem faultCompletion_opa (c : FaultCode) (s : State W) : (faultCompletion c s).opa = s.opa := rfl
@[simp] theorem faultCompletion_opb (c : FaultCode) (s : State W) : (faultCompletion c s).opb = s.opb := rfl
@[simp] theorem faultCompletion_opc (c : FaultCode) (s : State W) : (faultCompletion c s).opc = s.opc := rfl
@[simp] theorem faultCompletion_cmd (c : FaultCode) (s : State W) : (faultCompletion c s).cmd = s.cmd := rfl
@[simp] theorem faultCompletion_res0 (c : FaultCode) (s : State W) : (faultCompletion c s).res0 = 0 := rfl
@[simp] theorem faultCompletion_res1 (c : FaultCode) (s : State W) : (faultCompletion c s).res1 = 0 := rfl
@[simp] theorem faultCompletion_busy (c : FaultCode) (s : State W) : (faultCompletion c s).busy = false := rfl
@[simp] theorem faultCompletion_done (c : FaultCode) (s : State W) : (faultCompletion c s).done = true := rfl
@[simp] theorem faultCompletion_err (c : FaultCode) (s : State W) : (faultCompletion c s).err = true := rfl
@[simp] theorem faultCompletion_flag (c : FaultCode) (s : State W) : (faultCompletion c s).flag = false := rfl
@[simp] theorem faultCompletion_errcode (c : FaultCode) (s : State W) : (faultCompletion c s).errcode = c.errcode := rfl
@[simp] theorem faultCompletion_turns (c : FaultCode) (s : State W) : (faultCompletion c s).turns = s.turns := rfl
@[simp] theorem faultCompletion_returned (c : FaultCode) (s : State W) : (faultCompletion c s).returned = s.returned := rfl

/-! ### resetEvent -/

@[simp] theorem resetEvent_opa (s : State W) : (resetEvent s).opa = 0 := rfl
@[simp] theorem resetEvent_opb (s : State W) : (resetEvent s).opb = 0 := rfl
@[simp] theorem resetEvent_opc (s : State W) : (resetEvent s).opc = 0 := rfl
@[simp] theorem resetEvent_cmd (s : State W) : (resetEvent s).cmd = 0 := rfl
@[simp] theorem resetEvent_res0 (s : State W) : (resetEvent s).res0 = 0 := rfl
@[simp] theorem resetEvent_res1 (s : State W) : (resetEvent s).res1 = 0 := rfl
@[simp] theorem resetEvent_busy (s : State W) : (resetEvent s).busy = false := rfl
@[simp] theorem resetEvent_done (s : State W) : (resetEvent s).done = false := rfl
@[simp] theorem resetEvent_err (s : State W) : (resetEvent s).err = false := rfl
@[simp] theorem resetEvent_flag (s : State W) : (resetEvent s).flag = false := rfl
@[simp] theorem resetEvent_errcode (s : State W) : (resetEvent s).errcode = 0 := rfl
@[simp] theorem resetEvent_turns (s : State W) : (resetEvent s).turns = s.turns := rfl
@[simp] theorem resetEvent_returned (s : State W) : (resetEvent s).returned = s.returned := rfl

/-! ### complete: what no completion changes, and what every completion does -/

@[simp] theorem complete_opa (c : Completion W) (s : State W) : (complete c s).opa = s.opa := by cases c <;> rfl
@[simp] theorem complete_opb (c : Completion W) (s : State W) : (complete c s).opb = s.opb := by cases c <;> rfl
@[simp] theorem complete_opc (c : Completion W) (s : State W) : (complete c s).opc = s.opc := by cases c <;> rfl
@[simp] theorem complete_cmd (c : Completion W) (s : State W) : (complete c s).cmd = s.cmd := by cases c <;> rfl
@[simp] theorem complete_turns (c : Completion W) (s : State W) : (complete c s).turns = s.turns := by cases c <;> rfl
@[simp] theorem complete_returned (c : Completion W) (s : State W) : (complete c s).returned = s.returned := by cases c <;> rfl
@[simp] theorem complete_busy (c : Completion W) (s : State W) : (complete c s).busy = false := by cases c <;> rfl
@[simp] theorem complete_done (c : Completion W) (s : State W) : (complete c s).done = true := by cases c <;> rfl

end Sys2Proof.Machine
end

