-- ==== Sys2Proof/Laws/Step.lean ====
section
/-! SUPPORT. One lemma for each operation of the agents' turns, and the inversion lemma of a step: all that a step can do,
said once for every width. -/

namespace Sys2Proof.Machine

variable {W : Nat}

/-- A write while BUSY is ignored, at every index (20_memory.md R37, R38, R40). -/
theorem regWrite_busy {s : State W} (h : s.busy = true) (r : Reg) (v : Word W) : regWrite r v s = s := by
  cases r <;> simp [regWrite, h]

/-- A write with `BUSY = 0` stores an operand, starts a command, or is ignored (R37, R39, R40). -/
theorem regWrite_idle {s : State W} (h : s.busy = false) (r : Reg) (v : Word W) :
    (r = .opa ∧ regWrite r v s = { s with opa := v }) ∨ (r = .opb ∧ regWrite r v s = { s with opb := v }) ∨
      (r = .opc ∧ regWrite r v s = { s with opc := v }) ∨ (r = .cmd ∧ regWrite r v s = acceptCommand v s) ∨
      ((r = .status ∨ r = .res0 ∨ r = .res1 ∨ r = .reserved) ∧ regWrite r v s = s) := by
  cases r <;> simp [regWrite, h]

/-- No write touches the model's own fields. -/
@[simp] theorem regWrite_turns (r : Reg) (v : Word W) (s : State W) : (regWrite r v s).turns = s.turns := by
  cases r <;> simp only [regWrite] <;> split <;> rfl

@[simp] theorem regWrite_returned (r : Reg) (v : Word W) (s : State W) : (regWrite r v s).returned = s.returned := by
  cases r <;> simp only [regWrite] <;> split <;> rfl

/-- The engine's step, for every word in CMD, is the completion of `Exec` (R43, R44). -/
theorem engineComplete_eq (s : State W) :
    engineComplete s = .next (complete (completionOf s.cmd s.opa s.opb s.opc) s) := by
  unfold engineComplete completionOf
  cases decode s.cmd with
  | command i => cases i <;> rfl
  | illegal why => rfl

/-- The engine's turn completes the command in flight, if there is one. -/
theorem engineTurn_eq (s : State W) :
    engineTurn s = .next (if s.busy then complete (completionOf s.cmd s.opa s.opb s.opc) s else s) := by
  unfold engineTurn
  split
  · exact engineComplete_eq s
  · rfl

/-- A WAIT that finds `BUSY = 0` reads STATUS once more and is over. -/
theorem waitTurn_idle {s : State W} (h : s.busy = false) (polls : Nat) :
    waitTurn polls s = .next (regRead .status s) := by simp [waitTurn, h]

/-- A WAIT that finds `BUSY = 1` reads STATUS and goes on ... -/
theorem waitTurn_poll {s : State W} (h : s.busy = true) (polls : Nat) :
    waitTurn (polls + 1) s = .next { regRead .status s with turns := .wait polls :: s.turns } := by
  simp [waitTurn, h]

/-- ... until the command in flight completes. -/
theorem waitTurn_complete {s : State W} (h : s.busy = true) :
    waitTurn 0 s = engineComplete { s with turns := .wait 0 :: s.turns } := by simp [waitTurn, h]

/-- With no turn given the engine has its turn. -/
theorem stepAt_no_turn {s : State W} (h : s.turns = []) : stepAt s = engineTurn s := by simp [stepAt, h]

/-- Otherwise the next turn is taken off the list and done. -/
theorem stepAt_turn {s : State W} {t : Turn W} {rest : List (Turn W)} (h : s.turns = t :: rest) :
    stepAt s = takeTurn t { s with turns := rest } := by simp [stepAt, h]

/-- A run that begins with a step to `t` goes on from `t`. -/
theorem run_succ {s t : State W} (h : stepAt s = .next t) (n : Nat) : run (n + 1) s = run n t := by simp [run, h]

/-- What a step can do: complete the command in flight; nothing, on an idle engine; one read; one write, the next
turn; reset, the next turn. -/
theorem stepAt_cases {s t : State W} (h : stepAt s = .next t) :
    (s.busy = true ∧ ∃ ts, t = complete (completionOf s.cmd s.opa s.opb s.opc) { s with turns := ts }) ∨
      (s.busy = false ∧ ∃ ts, t = { s with turns := ts }) ∨
      (∃ r ts, t = { s with turns := ts, returned := s.returned ++ [regValue r s] }) ∨
      (∃ r v rest, s.turns = .write r v :: rest ∧ t = regWrite r v { s with turns := rest }) ∨
      (∃ rest, s.turns = .reset :: rest ∧ t = resetEvent { s with turns := rest }) := by
  have turn (ts : List (Turn W)) (he : engineTurn { s with turns := ts } = .next t) :
      (s.busy = true ∧ ∃ ts, t = complete (completionOf s.cmd s.opa s.opb s.opc) { s with turns := ts }) ∨
        (s.busy = false ∧ ∃ ts, t = { s with turns := ts }) := by
    rw [engineTurn_eq] at he
    injection he with he
    cases hb : s.busy with
    | true => exact .inl ⟨rfl, ts, by simpa [hb] using he.symm⟩
    | false => exact .inr ⟨rfl, ts, by simpa [hb] using he.symm⟩
  unfold stepAt at h
  split at h
  · next hn =>
    rcases turn [] (by rw [← hn]; exact h) with h | h
    · exact .inl h
    · exact .inr (.inl h)
  · next u rest hu =>
    cases u with
    | read r => injection h with h; exact .inr (.inr (.inl ⟨r, rest, by rw [← h]; cases r <;> rfl⟩))
    | write r v => injection h with h; exact .inr (.inr (.inr (.inl ⟨r, v, rest, hu, h.symm⟩)))
    | reset => injection h with h; exact .inr (.inr (.inr (.inr ⟨rest, hu, h.symm⟩)))
    | engine =>
      rcases turn rest h with h | h
      · exact .inl h
      · exact .inr (.inl h)
    | wait polls =>
      simp only [takeTurn, waitTurn] at h
      split at h
      · next hb =>
        cases polls with
        | zero =>
          rw [engineComplete_eq] at h
          injection h with h
          exact .inl ⟨hb, _, h.symm⟩
        | succ n => injection h with h; exact .inr (.inr (.inl ⟨.status, _, by rw [← h]; rfl⟩))
      · injection h with h; exact .inr (.inr (.inl ⟨.status, rest, by rw [← h]; rfl⟩))

/-! ### This hardware's width -/

theorem step_eq_stepAt (s : State) : step s = stepAt s := rfl

theorem exec_eq_execAt (i : Instr) (s : State) : exec i s = execAt i s := by cases i <;> rfl

theorem step_no_turn {s : State} (h : s.turns = []) : step s = engineTurn s := stepAt_no_turn h

theorem step_turn {s : State} {t : Turn} {rest : List Turn} (h : s.turns = t :: rest) :
    step s = takeTurn t { s with turns := rest } := stepAt_turn h

/-- The host's runs of the machine are these runs. -/
theorem core_run (n : Nat) (s : State) : Host.Core.run Sys2Proof.core n s = run n s := by
  induction n generalizing s with
  | zero => rfl
  | succ n ih =>
    cases h : stepAt s with
    | next t => simp only [Host.Core.run, core, step, run, h]; exact ih t
    | fault r => simp only [Host.Core.run, core, step, run, h]
    | refused r => simp only [Host.Core.run, core, step, run, h]

/-- What a step of this hardware can do. -/
theorem step_cases {s t : State} (h : step s = .next t) :
    (s.busy = true ∧ ∃ ts, t = complete (completionOf s.cmd s.opa s.opb s.opc) { s with turns := ts }) ∨
      (s.busy = false ∧ ∃ ts, t = { s with turns := ts }) ∨
      (∃ r ts, t = { s with turns := ts, returned := s.returned ++ [regValue r s] }) ∨
      (∃ r v rest, s.turns = .write r v :: rest ∧ t = regWrite r v { s with turns := rest }) ∨
      (∃ rest, s.turns = .reset :: rest ∧ t = resetEvent { s with turns := rest }) := stepAt_cases h

end Sys2Proof.Machine
end

