-- ==== Sys2Proof/Tests/Slice0.lean ====
section
/-! SUPPORT. The model's own tests. Expected results are the spec's: the opcode map (30_encoding.md R56), the rows of
95_test_vectors.md named beside each test, the rules' tables. The second half holds a witness for the hypotheses of each
statement in Certificates/Slice0/Obligations.lean. -/

namespace Sys2Proof.Tests

open Sys2Proof.Machine

/-! ### Parameters -/

theorem test_word_has_the_width :
    Word = BitVec Config.width ∧ State = State Config.width ∧ Config.nreg = 2 ^ 3 ∧ Config.WidthAllowed Config.width :=
  ⟨rfl, rfl, rfl, by decide⟩

/-- R5: W = 8 is the least width; 7 is none. -/
theorem test_width_refused : ¬Config.WidthAllowed 7 ∧ Config.WidthAllowed 8 := by decide

/-! ### Well-formedness refuses ill-formed terms -/

theorem test_rsvd_refused : rsvdZero 0x00000010#32 = false ∧ rsvdZero 0x80000001#32 = false := by decide

theorem test_opcode_refused :
    opcodeAssigned 0x00000000#32 = false ∧ opcodeAssigned 0x00000006#32 = false ∧ opcodeAssigned 0x0000000F#32 = false := by
  decide

theorem test_command_word_refused : commandWordWf 0x00000011#32 = false ∧ commandWordWf 0x00000000#32 = false := by decide

theorem test_value_refused : valueWf (-1) = false ∧ valueWf 4294967296 = false ∧ valueWf 4294967295 = true := by decide

theorem test_statement_refused :
    (HostStmt.wr .opa (-1)).wf = false ∧ (HostStmt.wr .opb 4294967296).wf = false ∧
      (HostStmt.wr .status 1).wf = false ∧ (HostStmt.rd .reserved).wf = false ∧ (HostStmt.wr .cmd 0).wf = true := by
  decide

/-! ### Decoding: words written out from the opcode map (R56), and illegal words (section 2.6) -/

theorem test_decode_isprime : decode 0b00000000000000000000000000000001#32 = .command .isprime := by decide

theorem test_decode_gcd : decode 0b00000000000000000000000000000010#32 = .command .gcd := by decide

theorem test_decode_modinv : decode 0b00000000000000000000000000000011#32 = .command .modinv := by decide

theorem test_decode_modexp : decode 0b00000000000000000000000000000100#32 = .command .modexp := by decide

theorem test_decode_factor : decode 0b00000000000000000000000000000101#32 = .command .factor := by decide

theorem test_decode_illegal :
    decode 0x00000000#32 = .illegal .opcodeReserved ∧ decode 0x00000006#32 = .illegal .opcodeReserved ∧
      decode 0x00000104#32 = .illegal .rsvdNotZero ∧ decode 0xFFFFFFFF#32 = .illegal .rsvdNotZero := by decide

theorem test_decode_table_word :
    decodeTableWord 32 4 = some .modexp ∧ decodeTableWord 32 0x104 = none ∧ decodeTableWord 8 0x05 = some .factor := by
  decide

/-! ### One step that completes a command: (RES0, RES1, STATUS) -/

/-- The result registers and STATUS after the step that runs the word `w` on the operands, just after reset. -/
def completes (w : Nat) (a b m : Word) : Option (Word × Word × Word) :=
  match step (State.withFetchWord { State.reset with opa := a, opb := b, opc := m } 32 w) with
  | .next t => some (t.res0, t.res1, regValue .status t)
  | .fault _ => none
  | .refused _ => none

/-- Section 2.1: the squares of the primes 5 and 7 are tried up to the root itself, 5 has an empty trial set. -/
theorem test_isprime_small :
    completes 1 25 0 0 = some (0, 0, 0x02) ∧ completes 1 49 0 0 = some (0, 0, 0x02) ∧
      completes 1 5 0 0 = some (1, 0, 0x0A) ∧ completes 1 2 0 0 = some (1, 0, 0x0A) ∧
      completes 1 1 0 0 = some (0, 0, 0x02) := by decide

/-- Section 2.1: the largest 16-bit prime, and 2^32 - 1. -/
theorem test_isprime_large :
    completes 1 65521 0 0 = some (1, 0, 0x0A) ∧ completes 1 4294967295 0 0 = some (0, 0, 0x02) := by decide +kernel

/-- Section 2.2: two zeros, one zero, either order, full width. -/
theorem test_gcd :
    completes 2 0 0 0 = some (0, 0, 0x02) ∧ completes 2 5 0 0 = some (5, 0, 0x02) ∧
      completes 2 12 18 0 = some (6, 0, 0x02) ∧ completes 2 4294967295 65535 0 = some (0xFFFF, 0, 0x02) := by
  decide +kernel

/-- Section 2.3: a negative coefficient, OPA above the modulus, a result in bit 31, the modulus 1. -/
theorem test_modinv_normal :
    completes 3 3 7 0 = some (5, 0, 0x02) ∧ completes 3 29 24 0 = some (5, 0, 0x02) ∧
      completes 3 2 4294967295 0 = some (0x80000000, 0, 0x02) ∧ completes 3 7 1 0 = some (0, 0, 0x02) := by
  decide +kernel

/-- Section 2.3: the zero modulus before the gcd, and no inverse. -/
theorem test_modinv_fault :
    completes 3 1 0 0 = some (0, 0, 0x26) ∧ completes 3 0 0 0 = some (0, 0, 0x26) ∧
      completes 3 6 24 0 = some (0, 0, 0x36) := by decide +kernel

/-- Section 2.4: the source's example, 0 to the 0, a base above the modulus, the zero modulus. -/
theorem test_modexp_small :
    completes 4 3 5 35 = some (33, 0, 0x02) ∧ completes 4 0 0 35 = some (1, 0, 0x02) ∧
      completes 4 0 0 1 = some (0, 0, 0x02) ∧ completes 4 38 5 35 = some (33, 0, 0x02) ∧
      completes 4 7 3 0 = some (0, 0, 0x26) := by decide +kernel

/-- Section 2.4: the double-width product, and a full-width exponent. -/
theorem test_modexp_large :
    completes 4 4294967294 2 4294967295 = some (1, 0, 0x02) ∧
      completes 4 2 4294967295 4294967291 = some (0x20, 0, 0x02) := by decide +kernel

/-- Section 2.5: nothing for 0 and 2, a square, a composite cofactor, a prime. -/
theorem test_factor_small :
    completes 5 0 0 0 = some (0, 0, 0x02) ∧ completes 5 2 0 0 = some (0, 0, 0x02) ∧
      completes 5 25 0 0 = some (5, 5, 0x0A) ∧ completes 5 12 0 0 = some (2, 6, 0x0A) ∧
      completes 5 17 0 0 = some (0, 0, 0x02) := by decide

/-- Section 2.5: 53 times 61, and 2^32 - 1. -/
theorem test_factor_large :
    completes 5 3233 0 0 = some (53, 61, 0x0A) ∧ completes 5 4294967295 0 0 = some (3, 0x55555555, 0x0A) := by
  decide +kernel

/-- Section 2.6: illegal words complete with ILLEGAL_CMD. -/
theorem test_illegal_word :
    completes 0 11 22 33 = some (0, 0, 0x16) ∧ completes 0x11 11 22 33 = some (0, 0, 0x16) := by decide

/-- The exact root next to the largest squares below 2^32 (40_primality.md R72, R74). -/
theorem test_isqrt : isqrt 4293001441 = 65521 ∧ isqrt 4293001440 = 65520 ∧ isqrt 4294967295 = 65535 ∧ isqrt 0 = 0 := by
  decide +kernel

/-! ### Other widths (00_scope.md R5; 30_encoding.md R65) -/

/-- Command words of 8 and 64 bits: the opcode zero-extended, every bit above it compared. -/
theorem test_decode_other_widths :
    decode 0b00000100#8 = .command .modexp ∧ decode 0x14#8 = .illegal .rsvdNotZero ∧
      decode 0x0000000000000005#64 = .command .factor ∧ decode 0x8000000000000005#64 = .illegal .rsvdNotZero ∧
      decode 0x06#8 = .illegal .opcodeReserved := by decide

/-- At W = 8: STATUS of a MOD_ZERO completion fills the register, and the product 254 * 254 needs 16 bits (the spec's
double-width row 4294967294 of section 2.4, at this width). -/
theorem test_width_8 :
    (match stepAt (awaitingCompletion 4 { State.resetAt 8 with opa := 254, opb := 2, opc := 255 }) with
      | .next t => some (t.res0, regValue .status t) | .fault _ => none | .refused _ => none) = some (1, 0x02) ∧
      (match stepAt (awaitingCompletion 3 (State.resetAt 8)) with
      | .next t => some (t.res0, regValue .status t) | .fault _ => none | .refused _ => none) = some (0, 0x26) := by
  decide +kernel

/-- At W = 64: a factor pair whose product does not fit 32 bits (3 * 1431655767 = 4294967301). -/
theorem test_width_64 :
    (match stepAt (awaitingCompletion 5 { State.resetAt 64 with opa := 4294967301 }) with
      | .next t => some (t.res0, t.res1, t.flag) | .fault _ => none | .refused _ => none) =
        some (3, 1431655767, true) := by decide +kernel

/-! ### Turns, pins, notation -/

/-- A state with these turns to come, no command in flight. -/
def idleWith (ts : List Turn) : State := { State.reset with turns := ts }

/-- A state with FACTOR of 35 in flight. -/
def busyWith (ts : List Turn) : State := { State.reset with opa := 35, cmd := 5, busy := true, turns := ts }

/-- V-busy, lines 6 and 7: writes while BUSY are ignored. -/
theorem test_write_while_busy :
    step (busyWith [.write .opa 17]) = .next (busyWith []) ∧ step (busyWith [.write .cmd 1]) = .next (busyWith []) :=
  ⟨rfl, rfl⟩

/-- V-reset, line 6: reset drops the command in flight. -/
theorem test_reset : step (busyWith [.reset]) = .next State.reset := rfl

/-- R52: a write at the completion's own edge sees `BUSY = 1` and is ignored. -/
theorem test_edge_write_at_completion :
    clockEdge ⟨false, true, true, 0, 17⟩ true (busyWith []) =
      .next { busyWith [] with res0 := 5, res1 := 7, flag := true, done := true, busy := false } := rfl

/-- R124: at an edge with rst a read returns the reset value and a write is discarded. R51: the port shows the value
before the edge. -/
theorem test_edge_reset :
    clockEdge ⟨true, true, false, 0, 0⟩ true (busyWith []) = .next { State.reset with returned := [0] } ∧
      rdata ⟨true, true, false, 0, 0⟩ (busyWith []) = 35 ∧ rdata ⟨true, true, false, 0, 0⟩ State.reset = 0 ∧
      clockEdge ⟨true, true, true, 0, 17⟩ true (busyWith []) = .next State.reset := ⟨rfl, rfl, rfl, rfl⟩

/-- R68: decimal, hexadecimal, negative, not a number. -/
theorem test_numbers :
    numberOf ['3', '5'] = some 35 ∧ numberOf ['0', 'x', '1', 'F'] = some 31 ∧ numberOf ['-', '1'] = some (-1) ∧
      numberOf ['1', 'A'] = none ∧ numberOf ['0', 'x'] = none := by decide

/-- V-busy, lines 1 and 3: the written form of a transaction. -/
theorem test_written_form :
    Turn.written (.read .status : Turn) = some ['R', ' ', '4'] ∧
      Turn.written (.write .opa 35 : Turn) = some ['W', ' ', '0', ' ', '0', '0', '0', '0', '0', '0', '2', '3'] := by decide

/-- R64: ENCRYPT 3, 35, 5 is MODEXP 3, 5, 35. -/
theorem test_encrypt :
    assemble (fun _ => 0) (Shorthand.encrypt (some 3) (some 35) (some 5)).expand =
      some [.write .opa 3, .write .opb 5, .write .opc 35, .write .cmd 4, .wait 0] := by decide

/-! ### Witnesses: a state and operands that meet the hypotheses of each statement -/

/-- The least width, this hardware's, and a greater one. -/
theorem witness_EncodeThenDecodeGivesTheCommand :
    Config.WidthAllowed 8 ∧ Config.WidthAllowed 32 ∧ Config.WidthAllowed 64 ∧ ∃ i : Instr, i.wf = true :=
  ⟨by decide, by decide, by decide, .modexp, rfl⟩

/-- The last opcode, the lowest bit of RSVD and the highest bit of the least word. -/
theorem witness_CommandWordIsTheOpcodeZeroExtended :
    Config.WidthAllowed 8 ∧ (encode .factor : Word 8) = 5 ∧ 4 ≤ 4 ∧ 4 ≤ 7 ∧ 7 < 8 := by decide

theorem witness_DecodeAcceptsExactlyTheOpcodeMap : Config.WidthAllowed 8 ∧ decode 0x05#8 = .command .factor := by decide

/-- Bits 0 and 3 of ERRCODE, and bit 8, the first above the fields. -/
theorem witness_StatusBitsStandWhereTheLayoutSays : Config.WidthAllowed 8 ∧ 0 < 4 ∧ 3 < 4 ∧ 8 ≤ 8 := by decide

/-- One word for each of the three ways to be illegal, at the edge of each. -/
theorem witness_IllegalWordCompletesWithIllegalCmd :
    ((0x10 : Word).toNat / 16 ≠ 0 ∧ (0 : Word).toNat % 16 = 0 ∧ 6 ≤ (6 : Word).toNat % 16) ∧
      (idleWith [.write .cmd 6, .engine]).busy = false ∧
      (idleWith [.write .cmd 6, .engine]).turns = .write .cmd 6 :: .engine :: [] := by decide

/-- The lowest and the highest index, 0 and 7, and STATUS between them. -/
theorem witness_ReadReturnsTheRegisterAndChangesNothing :
    (idleWith [.read .opa]).turns = .read (Reg.ofIndex 0) :: [] ∧
      (idleWith [.read .status]).turns = .read (Reg.ofIndex 4) :: [] ∧
      (idleWith [.read .reserved]).turns = .read (Reg.ofIndex 7) :: [] := by decide

theorem witness_OperandWriteStoresOrIsIgnored :
    ((idleWith [.write .opa 1]).busy = false ∧ (idleWith [.write .opa 1]).turns = .write .opa 1 :: []) ∧
      ((idleWith [.write .opb 1]).busy = false ∧ (idleWith [.write .opb 1]).turns = .write .opb 1 :: []) ∧
      ((idleWith [.write .opc 1]).busy = false ∧ (idleWith [.write .opc 1]).turns = .write .opc 1 :: []) ∧
      ((busyWith [.write .opc 1]).busy = true ∧ (busyWith [.write .opc 1]).turns = .write .opc 1 :: []) := by decide

theorem witness_CommandWriteWhileBusyIsLost :
    ∃ s t : State, s.busy = true ∧ s.turns = .write .cmd 1 :: [] ∧ (∀ rest, s.turns ≠ .reset :: rest) ∧
      step s = .next t := ⟨busyWith [.write .cmd 1], busyWith [], rfl, rfl, by simp [busyWith], rfl⟩

theorem witness_CommandWriteIsAccepted :
    ((idleWith [.write .cmd 0]).busy = false ∧ (idleWith [.write .cmd 0]).turns = .write .cmd 0 :: []) ∧
      (∃ s t : State, s.busy = true ∧ (∀ rest, s.turns ≠ .reset :: rest) ∧ step s = .next t) ∧
      ∀ i, decode 0#32 ≠ .command i :=
  ⟨by decide, ⟨busyWith [.write .opa 1], busyWith [], rfl, by simp [busyWith], rfl⟩, fun i => by cases i <;> decide⟩

theorem witness_ReadOnlyAndReservedWritesAreIgnored :
    (4 ≤ (4 : BitVec 3).toNat ∧ (idleWith [.write .status 255]).turns = .write (Reg.ofIndex 4) 255 :: []) ∧
      (4 ≤ (7 : BitVec 3).toNat ∧ (idleWith [.write .reserved 1]).turns = .write (Reg.ofIndex 7) 1 :: []) := by decide

theorem witness_StepRunsTheDecodedCommand :
    ((busyWith [.engine]).busy = true ∧ decode (busyWith [.engine]).cmd = .command .factor) ∧
      (busyWith [.engine]).turns = .engine :: [] ∧ (busyWith []).turns = [] ∧
      (busyWith [.wait 0]).turns = .wait 0 :: [] := by decide

theorem witness_CompleteWritesTheOutcomeInOneStep :
    ((busyWith [.engine]).turns = .engine :: [] ∧ (busyWith [.engine]).busy = true ∧
      (idleWith [.engine]).turns = .engine :: [] ∧ (idleWith [.engine]).busy = false) ∧
      ∃ s t : State, s.busy = true ∧ (∀ rest, s.turns ≠ .reset :: rest) ∧ step s = .next t :=
  ⟨by decide, busyWith [.write .opa 1], busyWith [], rfl, by simp [busyWith], rfl⟩

/-- MODEXP on three zeros in flight, with the next command behind it. -/
theorem witness_FaultCompletionRecordsTheCode :
    ∃ s : State, s.busy = true ∧ s.turns = .engine :: .write .cmd 2 :: [] ∧
      completionOf s.cmd s.opa s.opb s.opc = .raise .modZero :=
  ⟨{ State.reset with cmd := 4, busy := true, turns := [.engine, .write .cmd 2] }, by decide⟩

/-- One pair (OPA, OPB) for each clause: the modulus 0, no inverse, the modulus 1, an inverse modulo 2, the least
modulus that has one. -/
theorem witness_ModinvIsTheUniqueInverse :
    (idleWith []).opb = 0 ∧
      (∃ s : State, s.opb ≠ 0 ∧ Nat.gcd s.opa.toNat s.opb.toNat ≠ 1) ∧ (∃ s : State, s.opb = 1) ∧
      (∃ s : State, 1 < s.opb.toNat ∧ Nat.gcd s.opa.toNat s.opb.toNat = 1) :=
  ⟨rfl, ⟨{ State.reset with opb := 2 }, by decide⟩, ⟨{ State.reset with opb := 1 }, by decide⟩,
    ⟨{ State.reset with opa := 1, opb := 2 }, by decide⟩⟩

theorem witness_ModexpIsTheExactPower :
    (idleWith []).opc = 0 ∧ ∃ s : State, s.opc ≠ 0 := ⟨rfl, { State.reset with opc := 1 }, by decide⟩

theorem witness_ModexpOfZeroAndOne :
    (∃ s : State, s.opc ≠ 0 ∧ s.opb = 0 ∧ s.opc = 1) ∧ ∃ s : State, s.opc ≠ 0 ∧ s.opa = 0 ∧ s.opb ≠ 0 :=
  ⟨⟨{ State.reset with opc := 1 }, by decide⟩, { State.reset with opb := 1, opc := 1 }, by decide⟩

theorem witness_ModexpReducesTheBase : ∃ s : State, s.opc ≠ 0 ∧ s.opb = 1 :=
  ⟨{ State.reset with opa := 38, opb := 1, opc := 35 }, by decide⟩

/-- The source's key: N = 35, e = d = 5; the message 34 is the greatest below N. -/
theorem witness_RsaRoundTripReturnsTheMessage :
    ∃ s : State, Nat.Prime 5 ∧ Nat.Prime 7 ∧ 5 ≠ 7 ∧ 5 * 7 < 2 ^ 32 ∧ 5 < 2 ^ 32 ∧ 34 < 2 ^ 32 ∧
      5 * 5 ≡ 1 [MOD (5 - 1) * (7 - 1)] ∧ s.opa = BitVec.ofNat 32 34 ∧ s.opb = BitVec.ofNat 32 5 ∧
      s.opc = BitVec.ofNat 32 (5 * 7) ∧ 34 < 5 * 7 :=
  ⟨{ State.reset with opa := 34, opb := 5, opc := 35 }, by norm_num, by norm_num, by decide⟩

/-- Two states that agree on OPA alone meet the hypothesis for ISPRIME. -/
theorem witness_OutcomeDependsOnlyOnOperandsRead :
    ∀ r ∈ operandRegs .isprime, regValue r { State.reset with opa := 9, opb := 1 } =
      regValue r { State.reset with opa := 9, opc := 2, flag := true } := by decide

theorem witness_ResetDropsTheCommandInFlight :
    (busyWith [.reset]).turns = .reset :: [] ∧
      ∃ s t : State, s.busy = true ∧ step s = .next t ∧ t.busy = false :=
  ⟨rfl, busyWith [.reset], State.reset, rfl, rfl, rfl⟩

/-- The invariant holds of a state in which FACTOR has completed, and a step leads on from it. -/
theorem witness_EveryStepKeepsTheInvariant :
    ∃ s t : State, Coherent s ∧ step s = .next t :=
  ⟨complete (completionOf 5 35 0 0) (busyWith [.read .status]), _,
    ⟨⟨by decide, by decide, by decide, by decide, by decide⟩, fun _ => ⟨35, 0, 0, by decide⟩,
      fun _ h => by revert h; decide⟩, rfl⟩

theorem witness_StatusReadsOneOfSevenValues : ∃ s : State, Coherent s :=
  ⟨busyWith [], ⟨by decide, by decide, by decide, by decide, by decide⟩, fun h => by revert h; decide,
    fun h => by revert h; decide⟩

theorem witness_BusyChangesOnlyAsStated :
    (∃ t, step (idleWith [.write .cmd 1]) = .next t ∧ (idleWith [.write .cmd 1]).busy = false ∧ t.busy = true) ∧
      (∃ t, step (busyWith [.engine]) = .next t ∧ (busyWith [.engine]).busy = true ∧ t.busy = false) ∧
      (∃ t, step (busyWith [.reset]) = .next t ∧ (busyWith [.reset]).turns = .reset :: []) ∧
      ∃ t, step (busyWith [.write .opa 1]) = .next t ∧ (busyWith [.write .opa 1]).busy = true :=
  ⟨⟨_, rfl, rfl, rfl⟩, ⟨_, rfl, rfl, rfl⟩, ⟨_, rfl, rfl⟩, _, rfl, rfl⟩

theorem witness_OutcomeStaysUntilAcceptanceOrReset :
    ∃ s t : State, s.busy = false ∧ step s = .next t ∧ (∀ rest, s.turns ≠ .reset :: rest) ∧
      (∀ v rest, s.turns ≠ .write .cmd v :: rest) :=
  ⟨idleWith [.write .opa 1], _, rfl, rfl, by simp [idleWith], by simp [idleWith]⟩

theorem witness_RegistersChangeOnlyByTheirWriters :
    (∃ s t : State, step s = .next t ∧ (∀ rest, s.turns ≠ .reset :: rest) ∧ t.opa ≠ s.opa) ∧
      (∃ s t : State, step s = .next t ∧ (∀ rest, s.turns ≠ .reset :: rest) ∧ t.opb ≠ s.opb) ∧
      (∃ s t : State, step s = .next t ∧ (∀ rest, s.turns ≠ .reset :: rest) ∧ t.opc ≠ s.opc) ∧
      (∃ s t : State, step s = .next t ∧ (∀ rest, s.turns ≠ .reset :: rest) ∧ t.cmd ≠ s.cmd) ∧
      ∃ s t : State, step s = .next t ∧ (∀ rest, s.turns ≠ .reset :: rest) ∧ t.res0 ≠ s.res0 :=
  ⟨⟨idleWith [.write .opa 1], _, rfl, by simp [idleWith], by decide⟩,
    ⟨idleWith [.write .opb 1], _, rfl, by simp [idleWith], by decide⟩,
    ⟨idleWith [.write .opc 1], _, rfl, by simp [idleWith], by decide⟩,
    ⟨idleWith [.write .cmd 1], _, rfl, by simp [idleWith], by decide⟩,
    busyWith [.engine], _, rfl, by simp [busyWith], by decide⟩

theorem witness_ReissueGivesTheSameOutcome :
    ∃ s : State, s.busy = false ∧ s.turns = [.write .cmd 5, .engine, .write .cmd 5, .engine] ++ [] :=
  ⟨idleWith [.write .cmd 5, .engine, .write .cmd 5, .engine], rfl, rfl⟩

theorem witness_WaitEndsWithTheCompletedCommand :
    ((idleWith [.wait 0]).turns = .wait 0 :: [] ∧ (idleWith [.wait 0]).busy = false) ∧
      ((busyWith [.wait 0]).turns = .wait 0 :: [] ∧ (busyWith [.wait 0]).busy = true) ∧
      (busyWith [.wait 2]).turns = .wait 2 :: [] := by decide

/-- The turns of an edge that carries a command write at a completion, of an edge with rst and a read, and of one with
rst and a write. -/
theorem witness_ClockEdgeIsTransactionThenCompletion :
    let turnsOf (p : Pins) (due : Bool) (s : State) : List Turn :=
      if p.rst then .reset :: (if p.sel && !p.we then [.read (Reg.ofIndex p.addr)] else []) else
        (if p.sel then [if p.we then .write (Reg.ofIndex p.addr) p.wdata else .read (Reg.ofIndex p.addr)] else []) ++
        (if s.busy && due then [.engine] else [])
    turnsOf ⟨false, true, true, 3, 1⟩ true (busyWith []) = [.write .cmd 1, .engine] ∧
      turnsOf ⟨true, true, false, 0, 0⟩ true (busyWith []) = [.reset, .read .opa] ∧
      turnsOf ⟨true, true, true, 0, 17⟩ true (busyWith []) = [.reset] := by decide

theorem witness_EdgeActsOnTheStateBeforeIt :
    (∃ p : Pins, p.rst = false ∧ p.sel = true ∧ p.we = false) ∧ (busyWith []).busy = true ∧
      ∃ p : Pins, p.rst = true ∧ p.sel = true ∧ p.we = false :=
  ⟨⟨⟨false, true, false, 4, 0⟩, by decide⟩, rfl, ⟨true, true, false, 0, 0⟩, by decide⟩

/-- No edge after the acceptance meets the first clause for every LAT; as many idle edges as LAT meet the second. -/
theorem witness_CommandCompletesExactlyLatEdgesLater :
    ∃ (c : Clocked) (start : Pins) (pins : List Pins), c.block.busy = false ∧ start.rst = false ∧ start.sel = true ∧
      start.we = true ∧ start.addr = 3 ∧ (∀ p ∈ pins, p.rst = false) ∧
      ([] : List Pins).length < latency (acceptCommand start.wdata c.block) ∧
      pins.length = latency (acceptCommand start.wdata c.block) :=
  ⟨⟨State.reset, 0⟩, ⟨false, true, true, 3, 5⟩,
    List.replicate (latency (acceptCommand 5 State.reset)) ⟨false, false, false, 0, 0⟩,
    rfl, rfl, rfl, rfl, rfl, by simp +contextual [List.mem_replicate], Nat.succ_pos _, by simp⟩

/-- The least and the greatest value, and one past each; a register WR may not name; the reserved index. -/
theorem witness_AssemblyRefusesExactlyIllFormedListings :
    Config.WidthAllowed 8 ∧
      assemble (fun _ => 3) [.wr .opa 0, .wr .cmd 255, .cmd .isprime, .wait, .rd .res0] 8 =
        some [.write .opa 0, .write .cmd 255, .write .cmd 1, .wait 3, .read .res0] ∧
      assemble (fun _ => 3) [.wr .opa 256] 8 = none ∧ assemble (fun _ => 3) [.wr .opa (-1)] 8 = none ∧
      assemble (fun _ => 3) [.wr .status 0] 8 = none ∧ assemble (fun _ => 3) [.rd .reserved] 8 = none ∧
      (∃ ts, assemble (fun _ => 3) [.wr .opa 4294967295] = some ts) ∧
      assemble (fun _ => 3) [.wr .opa 4294967296] = none :=
  ⟨by decide, rfl, rfl, rfl, rfl, rfl, ⟨_, rfl⟩, rfl⟩

/-- One state of 16-bit registers for each clause: a zero modulus, no inverse, an inverse, a prime, a composite. -/
theorem witness_CommandsAreExactAtEveryWidth :
    Config.WidthAllowed 16 ∧ (∃ s : State 16, s.opb.toNat = 0 ∧ s.opc.toNat = 0) ∧
      (∃ s : State 16, s.opb.toNat ≠ 0 ∧ Nat.gcd s.opa.toNat s.opb.toNat ≠ 1) ∧
      (∃ s : State 16, s.opb.toNat ≠ 0 ∧ Nat.gcd s.opa.toNat s.opb.toNat = 1 ∧ s.opc.toNat ≠ 0) ∧
      (∃ s : State 16, s.opa.toNat.Prime) ∧
      ∃ s : State 16, s.opa.toNat ≠ 0 ∧ s.opa.toNat ≠ 1 ∧ ¬s.opa.toNat.Prime :=
  ⟨by decide, ⟨State.resetAt 16, rfl, rfl⟩, ⟨{ State.resetAt 16 with opb := 2 }, by decide⟩,
    ⟨{ State.resetAt 16 with opa := 1, opb := 2, opc := 3 }, by decide⟩,
    ⟨{ State.resetAt 16 with opa := 5 }, by decide⟩, { State.resetAt 16 with opa := 4 }, by decide⟩

/-- From 8 to 32 bits, a state that meets the invariant with a command in flight. -/
theorem witness_WiderMachineMovesInStep :
    Config.WidthAllowed 8 ∧ 8 ≤ 32 ∧ ∃ s t : State 8, stepAt s = .next t ∧ Coherent s :=
  ⟨by decide, by decide, { State.resetAt 8 with cmd := 3, busy := true }, _, rfl,
    ⟨by decide, by decide, by decide, by decide, by decide⟩, fun h => by revert h; decide,
    fun h => by revert h; decide⟩

end Sys2Proof.Tests
end

section
/-! PROOFS. The commands' results as the mathematical functions they are named for, on naturals and without a width
(00_scope.md R10, R11), and from them the exactness of every command at every width. -/

namespace Sys2Proof.Machine

variable {W : Nat}

/-! ### Primality and factors -/

/-- A prime from 5 up has the form the trial set wants (40_primality.md R70). -/
theorem prime_mod_six {p : Nat} (hp : p.Prime) (h : 5 ≤ p) : p % 6 = 1 ∨ p % 6 = 5 := by
  have h2 : ¬2 ∣ p := fun hd => by have := (Nat.prime_dvd_prime_iff_eq Nat.prime_two hp).1 hd; omega
  have h3 : ¬3 ∣ p := fun hd => by have := (Nat.prime_dvd_prime_iff_eq Nat.prime_three hp).1 hd; omega
  omega

/-- A composite number has its least prime factor at most at its integer square root. -/
theorem minFac_le_isqrt {n : Nat} (h0 : 0 < n) (hn : ¬n.Prime) : n.minFac ≤ isqrt n := by
  rw [le_isqrt_iff, ← Nat.pow_two]
  exact Nat.minFac_sq_le_self h0 hn

/-- The trial division of ISPRIME decides primality (40_primality.md R71). -/
theorem isPrimeNat_eq_decide (n : Nat) : isPrimeNat n = decide n.Prime := by
  rw [Bool.eq_iff_iff, isPrimeNat_iff, decide_eq_true_iff]
  constructor
  · rintro (rfl | rfl | ⟨h3n, h2, h3, htrial⟩)
    · exact Nat.prime_two
    · exact Nat.prime_three
    · by_contra hn
      have hp : n.minFac.Prime := Nat.minFac_prime (by omega)
      have hdvd : n.minFac ∣ n := Nat.minFac_dvd n
      have hne2 : n.minFac ≠ 2 := fun h => h2 (h ▸ hdvd)
      have hne3 : n.minFac ≠ 3 := fun h => h3 (h ▸ hdvd)
      have hne4 : n.minFac ≠ 4 := fun h => by rw [h] at hp; exact absurd hp (by decide)
      have h5 : 5 ≤ n.minFac := by have := hp.two_le; omega
      exact htrial _ h5 ((le_isqrt_iff _ _).1 (minFac_le_isqrt (by omega) hn)) (prime_mod_six hp h5) hdvd
  · intro hn
    have no_divisor {d : Nat} (hd : 2 ≤ d) (hlt : d < n) : ¬d ∣ n := fun h =>
      (hn.eq_one_or_self_of_dvd d h).elim (by omega) (by omega)
    have := hn.two_le
    by_cases h3 : n ≤ 3
    · omega
    · refine .inr (.inr ⟨by omega, no_divisor (by omega) (by omega), no_divisor (by omega) (by omega), ?_⟩)
      intro d h5 hsq _
      exact no_divisor (by omega) (by nlinarith)

/-- FACTOR's scan answers the least prime factor of a composite number, and nothing for 0, 1 and the primes
(43_factor.md R102). -/
theorem leastProperDivisor_eq (n : Nat) :
    leastProperDivisor n = if n = 0 ∨ n = 1 ∨ n.Prime then none else some n.minFac := by
  cases h : leastProperDivisor n with
  | none =>
    rw [if_pos]
    by_contra hn
    simp only [not_or] at hn
    obtain ⟨h0, h1, hp⟩ := hn
    have hle := minFac_le_isqrt (by omega) hp
    exact leastProperDivisor_none h n.minFac (Nat.minFac_prime (by omega)).two_le (by omega)
      ⟨Nat.minFac_dvd n, (Nat.not_prime_iff_minFac_lt (by omega)).1 hp⟩
  | some p =>
    obtain ⟨h2, -, hdvd, hlt, hleast⟩ := leastProperDivisor_some h
    have hp : ¬n.Prime := Nat.not_prime_of_dvd_of_lt hdvd h2 hlt
    rw [if_neg (by simp only [not_or]; exact ⟨by omega, by omega, hp⟩)]
    have hle : n.minFac ≤ p := Nat.minFac_le_of_dvd h2 hdvd
    have hge : ¬n.minFac < p := fun hlt' =>
      hleast _ (Nat.minFac_prime (by omega)).two_le hlt' (Nat.minFac_dvd n)
    rw [show p = n.minFac by omega]

/-! ### The modular inverse -/

/-- The natural that MODINV answers: the extended loop's coefficient, brought into `[0, m)` (41_gcd_modinv.md R82). -/
def modinvNat (a m : Nat) : Nat := ((extendedLoop (a % m + 1) m (a % m) 0 1).2 % (m : Int)).toNat

/-- MODINV's loop answers the gcd of its operands, congruent to the coefficient times the first (R82). -/
theorem extendedLoop_modinv (a m : Nat) :
    (extendedLoop (a % m + 1) m (a % m) 0 1).1 = Nat.gcd a m ∧
      (m : Int) ∣ (extendedLoop (a % m + 1) m (a % m) 0 1).2 * a - (Nat.gcd a m : Nat) := by
  have hgcd : Nat.gcd m (a % m) = Nat.gcd a m := by rw [Nat.gcd_comm m, ← Nat.gcd_rec, Nat.gcd_comm]
  have hres : (m : Int) ∣ 1 * a - ((a % m : Nat) : Int) := by
    rw [one_mul, Int.natCast_mod]
    exact Int.dvd_self_sub_emod
  obtain ⟨hg, hd⟩ := extendedLoop_spec a m (a % m + 1) m (a % m) 0 1 (by omega) (by simp) hres
  rw [hgcd] at hg
  exact ⟨hg, hg ▸ hd⟩

theorem natCast_modinvNat {a m : Nat} (hm : m ≠ 0) :
    (modinvNat a m : Int) = (extendedLoop (a % m + 1) m (a % m) 0 1).2 % m :=
  Int.toNat_of_nonneg (Int.emod_nonneg _ (by omega))

theorem modinvNat_lt {a m : Nat} (hm : m ≠ 0) : modinvNat a m < m := by
  have := Int.emod_lt_of_pos (extendedLoop (a % m + 1) m (a % m) 0 1).2 (b := m) (by omega)
  rw [← natCast_modinvNat hm] at this
  omega

/-- The inverse is one (41_gcd_modinv.md R81); modulo 1 both sides are 0 (R84). -/
theorem mul_modinvNat_mod {a m : Nat} (hm : m ≠ 0) (hg : Nat.gcd a m = 1) : a * modinvNat a m % m = 1 % m := by
  obtain ⟨-, hd⟩ := extendedLoop_modinv a m
  rw [hg] at hd
  have hcoeff : (extendedLoop (a % m + 1) m (a % m) 0 1).2 * a ≡ 1 [ZMOD m] :=
    (Int.modEq_iff_dvd.2 (by exact_mod_cast hd)).symm
  have hx : (modinvNat a m : Int) ≡ (extendedLoop (a % m + 1) m (a % m) 0 1).2 [ZMOD m] := by
    rw [natCast_modinvNat hm]
    exact Int.mod_modEq _ _
  have : ((a * modinvNat a m : Nat) : Int) ≡ ((1 : Nat) : Int) [ZMOD m] := by
    rw [Nat.cast_mul, mul_comm, Nat.cast_one]
    exact (hx.mul_right _).trans hcoeff
  exact Int.natCast_modEq_iff.1 this

/-! ### How each command ends -/

theorem isprimeCompletion_eq (n : Nat) :
    (isprimeCompletion n : Completion W) = .ret (if n.Prime then 1#W else 0#W) 0#W (decide n.Prime) := by
  simp [isprimeCompletion, isPrimeNat_eq_decide]

theorem gcdCompletion_eq (a b : Nat) :
    (gcdCompletion a b : Completion W) = .ret (Word.ofNat (Nat.gcd a b)) 0#W false := by
  simp [gcdCompletion, gcdNat_eq]

theorem modinvCompletion_zero {m : Nat} (hm : m = 0) (a : Nat) :
    (modinvCompletion a m : Completion W) = .raise .modZero := by
  simp [modinvCompletion, hm]

theorem modinvCompletion_not_coprime {a m : Nat} (hm : m ≠ 0) (hg : Nat.gcd a m ≠ 1) :
    (modinvCompletion a m : Completion W) = .raise .notInvertible := by
  simp [modinvCompletion, hm, (extendedLoop_modinv a m).1, hg]

theorem modinvCompletion_coprime {a m : Nat} (hm : m ≠ 0) (hg : Nat.gcd a m = 1) :
    (modinvCompletion a m : Completion W) = .ret (Word.ofNat (modinvNat a m)) 0#W false := by
  simp [modinvCompletion, hm, (extendedLoop_modinv a m).1, hg, modinvNat]

theorem modexpCompletion_zero {m : Nat} (hm : m = 0) (base exp : Nat) :
    (modexpCompletion base exp m : Completion W) = .raise .modZero := by
  simp [modexpCompletion, hm]

theorem modexpCompletion_pos {m : Nat} (hm : m ≠ 0) (base exp : Nat) :
    (modexpCompletion base exp m : Completion W) = .ret (Word.ofNat (base ^ exp % m)) 0#W false := by
  simp [modexpCompletion, hm, modexpNat_eq]

theorem factorCompletion_not_found {n : Nat} (h : n = 0 ∨ n = 1 ∨ n.Prime) :
    (factorCompletion n : Completion W) = .ret 0#W 0#W false := by
  simp [factorCompletion, leastProperDivisor_eq, h]

theorem factorCompletion_composite {n : Nat} (h0 : n ≠ 0) (h1 : n ≠ 1) (hp : ¬n.Prime) :
    (factorCompletion n : Completion W) = .ret (Word.ofNat n.minFac) (Word.ofNat (n / n.minFac)) true := by
  simp [factorCompletion, leastProperDivisor_eq, h0, h1, hp]

/-- How a command ends on three operand values: `Exec` of 20_memory.md R44 after decoding. -/
def commandCompletion (i : Instr) (a b m : Nat) : Completion W :=
  match i with
  | .isprime => isprimeCompletion a
  | .gcd => gcdCompletion a b
  | .modinv => modinvCompletion a b
  | .modexp => modexpCompletion a b m
  | .factor => factorCompletion a

/-- Every command completes, in every state. -/
theorem execAt_eq (i : Instr) (s : State W) :
    execAt i s = .next (complete (commandCompletion i s.opa.toNat s.opb.toNat s.opc.toNat) s) := by
  cases i <;> rfl

theorem completionOf_command {c : Word W} {i : Instr} (h : decode c = .command i) (a b m : Word W) :
    completionOf c a b m = commandCompletion i a.toNat b.toNat m.toNat := by
  unfold completionOf
  rw [h]
  cases i <;> rfl

theorem completionOf_illegal {c : Word W} {why : Reject} (h : decode c = .illegal why) (a b m : Word W) :
    completionOf c a b m = .raise .illegalCmd := by
  unfold completionOf
  rw [h]

/-! ### Results fit a register -/

theorem Word.toNat_ofNat_of_lt {n : Nat} (h : n < 2 ^ W) : (Word.ofNat n : Word W).toNat = n := by
  simp [Nat.mod_eq_of_lt h]

theorem gcd_lt_two_pow {a b : Nat} (ha : a < 2 ^ W) (hb : b < 2 ^ W) : Nat.gcd a b < 2 ^ W := by
  rcases Nat.eq_zero_or_pos a with rfl | h
  · simpa using hb
  · exact Nat.lt_of_le_of_lt (Nat.gcd_le_left b h) ha

theorem minFac_lt_two_pow {n : Nat} (h : n < 2 ^ W) (h0 : 0 < n) : n.minFac < 2 ^ W :=
  Nat.lt_of_le_of_lt (Nat.minFac_le h0) h

theorem cofactor_lt_two_pow {n : Nat} (p : Nat) (h : n < 2 ^ W) : n / p < 2 ^ W :=
  Nat.lt_of_le_of_lt (Nat.div_le_self n p) h

theorem pow_mod_lt_two_pow {m : Nat} (hm : m ≠ 0) (h : m < 2 ^ W) (base exp : Nat) : base ^ exp % m < 2 ^ W :=
  Nat.lt_trans (Nat.mod_lt _ (by omega)) h

theorem modinvNat_lt_two_pow {a m : Nat} (hm : m ≠ 0) (h : m < 2 ^ W) : modinvNat a m < 2 ^ W :=
  Nat.lt_trans (modinvNat_lt hm) h

/-- Settles O46: each command's completion by its own lemma, and each result fits because it is at most an operand. -/
theorem commandsAreExactAtEveryWidth : Obligations.CommandsAreExactAtEveryWidth := by
  rintro W s a b m - rfl rfl rfl
  have ha := s.opa.isLt
  have hb := s.opb.isLt
  have hm := s.opc.isLt
  refine ⟨fun i => commandCompletion i s.opa.toNat s.opb.toNat s.opc.toNat, fun i => execAt_eq i s,
    isprimeCompletion_eq _,
    ⟨_, Word.toNat_ofNat_of_lt (gcd_lt_two_pow ha hb), gcdCompletion_eq _ _⟩,
    fun h => modinvCompletion_zero h _, modinvCompletion_not_coprime, fun h hg => ?inverse,
    fun h => modexpCompletion_zero h _ _,
    fun h => ⟨_, modexpCompletion_pos h _ _, Word.toNat_ofNat_of_lt (pow_mod_lt_two_pow h hm _ _)⟩,
    factorCompletion_not_found, fun h0 h1 hp => ?composite⟩
  case inverse =>
    refine ⟨_, modinvCompletion_coprime h hg, ?_⟩
    rw [Word.toNat_ofNat_of_lt (modinvNat_lt_two_pow h hb)]
    exact ⟨modinvNat_lt h, mul_modinvNat_mod h hg⟩
  case composite =>
    refine ⟨_, _, factorCompletion_composite h0 h1 hp, ?_⟩
    rw [Word.toNat_ofNat_of_lt (minFac_lt_two_pow ha (by omega)), Word.toNat_ofNat_of_lt (cofactor_lt_two_pow _ ha)]
    exact ⟨rfl, Nat.mul_div_cancel' (Nat.minFac_dvd _)⟩

end Sys2Proof.Machine
end

section
/-! PROOFS. The same block at a greater width: every operation of the machine commutes with zero-extension
(00_scope.md R5, R10; 92_eei_decisions.md D1), and the host's names are the width 32. -/

namespace Sys2Proof.Machine

variable {W : Nat}

/-! ### Command words -/

/-- RSVD is 0 exactly when the word is below 16 (30_encoding.md R53). -/
theorem rsvdField_eq_zero_iff (w : Word W) : rsvdField w = 0 ↔ w.toNat / 16 = 0 := by
  have hw := w.isLt
  have hfit : w.toNat / 16 < 2 ^ (W - 4) := by
    rw [Nat.div_lt_iff_lt_mul (by omega), show (16 : Nat) = 2 ^ 4 from rfl, ← Nat.pow_add]
    exact Nat.lt_of_lt_of_le hw (Nat.pow_le_pow_right (by omega) (by omega))
  have hnat : (rsvdField w).toNat = w.toNat / 16 := by
    rw [rsvdField, BitVec.extractLsb'_toNat, Nat.shiftRight_eq_div_pow, Nat.mod_eq_of_lt hfit]
  rw [← hnat, BitVec.toNat_eq]
  rfl

theorem opcodeField_toNat (w : Word W) : (opcodeField w).toNat = w.toNat % 16 := by
  rw [opcodeField, BitVec.extractLsb'_toNat]
  rfl

/-- The verdict on a command word does not depend on the width that holds it (30_encoding.md R57, R65). -/
theorem decode_setWidth {V : Nat} (hV : W ≤ V) (w : Word W) : decode (w.setWidth V) = decode w := by
  simp only [decode, ne_eq, rsvdField_eq_zero_iff, opcodeField_toNat, BitVec.toNat_setWidth_of_le hV]

/-! ### Completions -/

/-- How a command ends, at a greater width: its results are zero-extended. -/
def Completion.widen (V : Nat) : Completion W → Completion V
  | .ret r0 r1 flag => .ret (r0.setWidth V) (r1.setWidth V) flag
  | .raise code => .raise code

theorem complete_widen (V : Nat) (c : Completion W) (s : State W) :
    complete (c.widen V) (s.widen V) = (complete c s).widen V := by
  cases c with
  | ret r0 r1 flag => rfl
  | raise code => simp [complete, faultCompletion, setFaultOutcome, Completion.widen, State.widen]

/-- On operands that fit `W` bits a command ends alike at `W` and at a greater width. -/
theorem commandCompletion_widen {V : Nat} (hW : 0 < W) (hV : W ≤ V) {a b m : Nat} (ha : a < 2 ^ W)
    (hb : b < 2 ^ W) (hm : m < 2 ^ W) (i : Instr) :
    (commandCompletion i a b m : Completion W).widen V = commandCompletion i a b m := by
  have hone : (1#W).setWidth V = 1#V := BitVec.setWidth_ofNat_one_eq_ofNat_one_of_lt hW
  cases i with
  | isprime =>
    simp only [commandCompletion, isprimeCompletion_eq, Completion.widen, BitVec.setWidth_zero, apply_ite, hone]
  | gcd =>
    simp only [commandCompletion, gcdCompletion_eq, Completion.widen, BitVec.setWidth_zero,
      BitVec.setWidth_ofNat_of_le_of_lt hV (gcd_lt_two_pow ha hb)]
  | modinv =>
    by_cases h0 : b = 0
    · simp only [commandCompletion, modinvCompletion_zero h0, Completion.widen]
    by_cases hg : Nat.gcd a b = 1
    · simp only [commandCompletion, modinvCompletion_coprime h0 hg, Completion.widen, BitVec.setWidth_zero,
        BitVec.setWidth_ofNat_of_le_of_lt hV (modinvNat_lt_two_pow h0 hb)]
    · simp only [commandCompletion, modinvCompletion_not_coprime h0 hg, Completion.widen]
  | modexp =>
    by_cases h0 : m = 0
    · simp only [commandCompletion, modexpCompletion_zero h0, Completion.widen]
    · simp only [commandCompletion, modexpCompletion_pos h0, Completion.widen, BitVec.setWidth_zero,
        BitVec.setWidth_ofNat_of_le_of_lt hV (pow_mod_lt_two_pow h0 hm _ _)]
  | factor =>
    by_cases hn : a = 0 ∨ a = 1 ∨ a.Prime
    · simp only [commandCompletion, factorCompletion_not_found hn, Completion.widen, BitVec.setWidth_zero]
    · simp only [not_or] at hn
      obtain ⟨h0, h1, hp⟩ := hn
      simp only [commandCompletion, factorCompletion_composite h0 h1 hp, Completion.widen,
        BitVec.setWidth_ofNat_of_le_of_lt hV (minFac_lt_two_pow ha (by omega)),
        BitVec.setWidth_ofNat_of_le_of_lt hV (cofactor_lt_two_pow _ ha)]

theorem completionOf_widen {V : Nat} (hW : 0 < W) (hV : W ≤ V) (c a b m : Word W) :
    completionOf (c.setWidth V) (a.setWidth V) (b.setWidth V) (m.setWidth V) = (completionOf c a b m).widen V := by
  cases h : decode c with
  | command i =>
    rw [completionOf_command h, completionOf_command (by rw [decode_setWidth hV, h])]
    simp only [BitVec.toNat_setWidth_of_le hV]
    exact (commandCompletion_widen hW hV a.isLt b.isLt m.isLt i).symm
  | illegal why =>
    rw [completionOf_illegal h, completionOf_illegal (by rw [decode_setWidth hV, h])]
    rfl

/-! ### Transactions, reset and turns -/

@[simp] theorem widen_busy (V : Nat) (s : State W) : (s.widen V).busy = s.busy := rfl
@[simp] theorem widen_turns (V : Nat) (s : State W) : (s.widen V).turns = s.turns.map (Turn.widen V) := rfl

theorem resetAt_widen (V : Nat) : (State.resetAt W).widen V = State.resetAt V := by
  simp [State.widen, State.resetAt]

/-- STATUS zero-extends, because its eight bits fit the lesser width (10_state.md R20). -/
theorem statusWord_widen {V : Nat} (hW : 8 ≤ W) (s : State W) :
    statusWord (s.widen V) = (statusWord s).setWidth V :=
  (BitVec.setWidth_setWidth (by omega)).symm

theorem regValue_widen {V : Nat} (hW : 8 ≤ W) (r : Reg) (s : State W) :
    regValue r (s.widen V) = (regValue r s).setWidth V := by
  cases r with
  | status => exact statusWord_widen hW s
  | reserved => exact (BitVec.setWidth_zero V W).symm
  | opa | opb | opc | cmd | res0 | res1 => rfl

theorem regRead_widen {V : Nat} (hW : 8 ≤ W) (r : Reg) (s : State W) :
    regRead r (s.widen V) = (regRead r s).widen V := by
  simp only [regRead, regValue_widen hW]
  simp [State.widen]

theorem regWrite_widen (V : Nat) (r : Reg) (v : Word W) (s : State W) :
    regWrite r (v.setWidth V) (s.widen V) = (regWrite r v s).widen V := by
  cases hb : s.busy with
  | true => rw [regWrite_busy hb, regWrite_busy (s := s.widen V) hb]
  | false => cases r <;> simp [regWrite, hb] <;> rfl

theorem resetEvent_widen (V : Nat) (s : State W) : resetEvent (s.widen V) = (resetEvent s).widen V := by
  simp [resetEvent, State.resetAt, State.widen]

/-- The answer of a step at a greater width: its next state is zero-extended. -/
def widenOutcome (V : Nat) : Host.Outcome (State W) Fault Refusal → Host.Outcome (State V) Fault Refusal
  | .next s => .next (s.widen V)
  | .fault r => .fault r
  | .refused r => .refused r

theorem engineComplete_widen {V : Nat} (hW : 0 < W) (hV : W ≤ V) (s : State W) :
    engineComplete (s.widen V) = widenOutcome V (engineComplete s) := by
  rw [engineComplete_eq, engineComplete_eq, widenOutcome, ← complete_widen, ← completionOf_widen hW hV]
  rfl

theorem engineTurn_widen {V : Nat} (hW : 0 < W) (hV : W ≤ V) (s : State W) :
    engineTurn (s.widen V) = widenOutcome V (engineTurn s) := by
  unfold engineTurn
  rw [apply_ite (widenOutcome V), ← engineComplete_widen hW hV]
  rfl

theorem waitTurn_widen {V : Nat} (hW : 8 ≤ W) (hV : W ≤ V) (polls : Nat) (s : State W) :
    waitTurn polls (s.widen V) = widenOutcome V (waitTurn polls s) := by
  cases hb : s.busy with
  | false => rw [waitTurn_idle hb, waitTurn_idle (s := s.widen V) hb, regRead_widen hW]; rfl
  | true =>
    cases polls with
    | zero =>
      rw [waitTurn_complete hb, waitTurn_complete (s := s.widen V) hb, ← engineComplete_widen (by omega) hV]
      rfl
    | succ n => rw [waitTurn_poll hb, waitTurn_poll (s := s.widen V) hb, regRead_widen hW]; rfl

theorem takeTurn_widen {V : Nat} (hW : 8 ≤ W) (hV : W ≤ V) (t : Turn W) (s : State W) :
    takeTurn (t.widen V) (s.widen V) = widenOutcome V (takeTurn t s) := by
  cases t with
  | read r => exact congrArg _ (regRead_widen hW r s)
  | write r v => exact congrArg _ (regWrite_widen V r v s)
  | wait polls => exact waitTurn_widen hW hV polls s
  | engine => exact engineTurn_widen (by omega) hV s
  | reset => exact congrArg _ (resetEvent_widen V s)

/-- One step commutes with zero-extension. -/
theorem stepAt_widen {V : Nat} (hW : 8 ≤ W) (hV : W ≤ V) (s : State W) :
    stepAt (s.widen V) = widenOutcome V (stepAt s) := by
  cases h : s.turns with
  | nil =>
    rw [stepAt_no_turn h, stepAt_no_turn (s := s.widen V) (by simp [h])]
    exact engineTurn_widen (by omega) hV s
  | cons t rest =>
    rw [stepAt_turn h, stepAt_turn (s := s.widen V) (t := t.widen V) (rest := rest.map (Turn.widen V))
      (by simp [h])]
    exact takeTurn_widen hW hV t { s with turns := rest }

/-- Settles O47: one step commutes with zero-extension, and the reset state is zero at every width. -/
theorem widerMachineMovesInStep : Obligations.WiderMachineMovesInStep := by
  intro W V hW hV
  refine ⟨resetAt_widen V, fun s t h => ?_⟩
  rw [stepAt_widen hW hV, h]
  rfl

/-- Settles O45: the host's names unfold to the model at width 32, `exec` arm by arm. -/
theorem hostNamesAreTheMachineAtWidth32 : Obligations.HostNamesAreTheMachineAtWidth32 :=
  ⟨exec_eq_execAt, step_eq_stepAt, rfl, fun _ => rfl⟩

end Sys2Proof.Machine
end

section
/-! PROOFS. STATUS: the layout of its bits, the machine's invariant, which every completion, acceptance and reset
establishes and every other turn keeps, and the values that STATUS can read (10_state.md sections 2 and 4). -/

namespace Sys2Proof.Machine

variable {W : Nat}

/-! ### The bits of STATUS -/

/-- The eight STATUS bits of a width that has them, and 0 above (10_state.md R20). -/
theorem getLsbD_statusWord (hW : 8 ≤ W) (s : State W) (k : Nat) :
    (statusWord s).getLsbD k = (statusBits s).getLsbD k := by
  rw [statusWord, BitVec.getLsbD_setWidth]
  by_cases hk : k < W
  · simp [hk]
  · simp [hk, BitVec.getLsbD_of_ge (statusBits s) k (by omega)]

/-- ERRCODE stands in the upper four of the eight bits. -/
theorem getLsbD_statusBits_errcode (s : State W) (k : Nat) :
    (statusBits s).getLsbD (4 + k) = s.errcode.getLsbD k := by
  simp only [statusBits, BitVec.getLsbD_append, show ¬4 + k < 1 by omega, show ¬4 + k - 1 < 1 by omega,
    show ¬4 + k - 1 - 1 < 1 by omega, show ¬4 + k - 1 - 1 - 1 < 1 by omega, if_false]
  congr 1
  omega

/-- After reset every register reads 0 (R32). -/
theorem regValue_resetAt (r : Reg) : regValue r (State.resetAt W) = 0 := by
  cases r with
  | status => simp [regValue, statusWord, statusBits, State.resetAt]
  | opa | opb | opc | cmd | res0 | res1 | reserved => rfl

/-- Settles O10: the layout of the eight bits, bit by bit; a read only appends to what the host has seen. -/
theorem statusBitsStandWhereTheLayoutSays : Obligations.StatusBitsStandWhereTheLayoutSays := by
  intro W s hW
  have bit (k : Nat) : (regValue .status s).getLsbD k = (statusBits s).getLsbD k := getLsbD_statusWord hW s k
  simp only [bit]
  refine ⟨?busy, ?done, ?err, ?flag, fun k _ => getLsbD_statusBits_errcode s k,
    fun k hk => BitVec.getLsbD_of_ge _ k hk, fun _ => rfl, rfl, regValue_resetAt .status⟩
  all_goals simp only [statusBits, BitVec.getLsbD_append]; simp

/-- Settles O28: register by register, by `regValue_resetAt`. -/
theorem resetReadsZeroAtEveryIndex : Obligations.ResetReadsZeroAtEveryIndex :=
  ⟨fun _ => regValue_resetAt _, rfl⟩

/-! ### The invariant -/

/-- What the host writes to the operands, reads and still has to do does not enter a completion. -/
theorem complete_update (c : Completion W) (s : State W) (a b m : Word W) (ts : List (Turn W)) (vs : List (Word W)) :
    complete c { s with opa := a, opb := b, opc := m, turns := ts, returned := vs } =
      { complete c s with opa := a, opb := b, opc := m, turns := ts, returned := vs } := by
  cases c <;> rfl

/-- Completing twice in the same way is completing once. -/
theorem complete_complete (c : Completion W) (s : State W) : complete c (complete c s) = complete c s := by
  cases c <;> rfl

theorem FaultCode.errcode_ne_zero (c : FaultCode) : c.errcode ≠ 0 := by cases c <;> decide

theorem FaultCode.errcode_le (c : FaultCode) : c.errcode.toNat ≤ 3 := by cases c <;> decide

/-- With `DONE = 0` the invariants of STATUS want all outcome fields cleared (R28). -/
theorem StatusInv.of_cleared {s : State W} (hd : s.done = false) (he : s.err = false) (hf : s.flag = false)
    (hc : s.errcode = 0) : StatusInv s :=
  ⟨by simp [hd], by simp [he], by simp [hc, he], by simp [hf], by simp [hc]⟩

/-- Every completion leaves STATUS within its invariants, whatever STATUS was before. -/
theorem statusInv_complete (c : Completion W) (s : State W) : StatusInv (complete c s) where
  not_busy_and_done h := by simp at h
  err_done _ := by simp
  errcode_iff_err := by
    cases c with
    | ret r0 r1 flag => simp [complete]
    | raise code => simpa [complete] using code.errcode_ne_zero
  flag_done := by cases c <;> simp [complete]
  errcode_le := by
    cases c with
    | ret r0 r1 flag => simp [complete]
    | raise code => exact code.errcode_le

/-- The completion of the command in CMD, on any operands, meets the invariant from every state (R24, R28). -/
theorem coherent_complete (s : State W) (a b m : Word W) : Coherent (complete (completionOf s.cmd a b m) s) where
  status := statusInv_complete _ s
  results _ := ⟨a, b, m, by rw [complete_cmd, complete_complete]⟩
  fresh _ h := by simp at h

/-- So does an acceptance: nothing is claimed of the results of a command in flight. -/
theorem coherent_acceptCommand (v : Word W) (s : State W) : Coherent (acceptCommand v s) where
  status := .of_cleared rfl rfl rfl rfl
  results h := by simp at h
  fresh h := by simp at h

theorem coherent_resetAt (W : Nat) : Coherent (State.resetAt W) where
  status := .of_cleared rfl rfl rfl rfl
  results h := by simp [State.resetAt] at h
  fresh _ _ := ⟨rfl, rfl, rfl⟩

/-- The invariant does not speak of the operands or of the world outside. -/
theorem Coherent.update {s : State W} (h : Coherent s) (a b m : Word W) (ts : List (Turn W)) (vs : List (Word W)) :
    Coherent { s with opa := a, opb := b, opc := m, turns := ts, returned := vs } where
  status := ⟨h.status.not_busy_and_done, h.status.err_done, h.status.errcode_iff_err, h.status.flag_done,
    h.status.errcode_le⟩
  results hd := by
    obtain ⟨a', b', m', hc⟩ := h.results hd
    exact ⟨a', b', m', by rw [complete_update, hc]⟩
  fresh := h.fresh

/-- A write to any index keeps the invariant: it stores an operand, is an acceptance, or is ignored (20_memory.md R37
to R40). -/
theorem coherent_regWrite {s : State W} (h : Coherent s) (r : Reg) (v : Word W) : Coherent (regWrite r v s) := by
  cases hb : s.busy with
  | true => rwa [regWrite_busy hb]
  | false =>
    obtain ⟨-, hw⟩ | ⟨-, hw⟩ | ⟨-, hw⟩ | ⟨-, hw⟩ | ⟨-, hw⟩ := regWrite_idle hb r v <;> rw [hw]
    · exact h.update v s.opb s.opc s.turns s.returned
    · exact h.update s.opa v s.opc s.turns s.returned
    · exact h.update s.opa s.opb v s.turns s.returned
    · exact coherent_acceptCommand v s
    · exact h

theorem coherent_stepAt {s t : State W} (h : Coherent s) (hs : stepAt s = .next t) : Coherent t := by
  have turns (ts : List (Turn W)) : Coherent { s with turns := ts } := h.update s.opa s.opb s.opc ts s.returned
  obtain ⟨-, ts, rfl⟩ | ⟨-, ts, rfl⟩ | ⟨r, ts, rfl⟩ | ⟨r, v, rest, -, rfl⟩ | ⟨rest, -, rfl⟩ := stepAt_cases hs
  · exact coherent_complete { s with turns := ts } s.opa s.opb s.opc
  · exact turns ts
  · exact h.update s.opa s.opb s.opc ts _
  · exact coherent_regWrite (turns rest) r v
  · exact (coherent_resetAt W).update 0 0 0 rest s.returned

/-- Settles O31: completions, acceptances and reset establish the invariant, and every other turn touches only fields
that it does not speak of. -/
theorem everyStepKeepsTheInvariant : Obligations.EveryStepKeepsTheInvariant :=
  fun _ _ h hs => coherent_stepAt h hs

/-- Settles O30: the reset state at this hardware's width. -/
theorem invariantHoldsAfterReset : Obligations.InvariantHoldsAfterReset := coherent_resetAt 32

/-! ### The values of STATUS -/

theorem StatusInv.errcode_eq_zero {s : State W} (h : StatusInv s) (he : s.err = false) : s.errcode = 0 := by
  by_contra hc
  exact Bool.false_ne_true (he.symm.trans (h.errcode_iff_err.1 hc))

/-- The codes that stand in STATUS after a fault completion (R27). -/
theorem StatusInv.errcode_cases {s : State W} (h : StatusInv s) (he : s.err = true) :
    s.errcode = 1 ∨ s.errcode = 2 ∨ s.errcode = 3 := by
  have hne := h.errcode_iff_err.2 he
  have hle := h.errcode_le
  bv_omega

/-- The block is in flight or fresh with no outcome, or has completed, normally or with a fault (R28). -/
theorem StatusInv.cases {s : State W} (h : StatusInv s) :
    (s.done = false ∧ s.err = false ∧ s.flag = false ∧ s.errcode = 0) ∨
      (s.busy = false ∧ s.done = true ∧ s.err = false ∧ s.errcode = 0) ∨
      (s.busy = false ∧ s.done = true ∧ s.err = true ∧ s.flag = false ∧
        (s.errcode = 1 ∨ s.errcode = 2 ∨ s.errcode = 3)) := by
  cases hd : s.done with
  | false =>
    have he : s.err = false := by simpa [hd] using h.err_done
    have hf : s.flag = false := by simpa [hd] using h.flag_done
    exact .inl ⟨rfl, he, hf, h.errcode_eq_zero he⟩
  | true =>
    have hb : s.busy = false := by simpa [hd] using h.not_busy_and_done
    cases he : s.err with
    | false => exact .inr (.inl ⟨hb, rfl, rfl, h.errcode_eq_zero he⟩)
    | true =>
      have hf : s.flag = false := by simpa [he] using h.flag_done
      exact .inr (.inr ⟨hb, rfl, rfl, hf, h.errcode_cases he⟩)

/-- Settles O32: idle or in flight 0x00, 0x01; after a normal completion 0x02, 0x0A; after a fault its code. -/
theorem statusReadsOneOfSevenValues : Obligations.StatusReadsOneOfSevenValues := by
  intro s h
  simp only [regValue, statusWord, statusBits]
  obtain ⟨hd, he, hf, hc⟩ | ⟨hb, hd, he, hc⟩ | ⟨hb, hd, he, hf, hc⟩ := h.status.cases
  · rw [hd, he, hf, hc]
    cases s.busy <;> decide
  · rw [hb, hd, he, hc]
    cases s.flag <;> decide
  · rw [hb, hd, he, hf]
    obtain hc | hc | hc := hc <;> rw [hc] <;> decide

end Sys2Proof.Machine
end

section
/-! PROOFS. The frame of a command, and which turns change BUSY and each register (10_state.md sections 1 to 3). -/

namespace Sys2Proof.Machine

variable {W : Nat}

/-! ### The frame of a command -/

/-- How each command can end: which results and FLAG it may set, and which faults it may raise (R30, R26). -/
theorem commandCompletion_cases (i : Instr) (a b m : Nat) :
    (∃ r0 r1 flag, (commandCompletion i a b m : Completion W) = .ret r0 r1 flag ∧ (i ≠ .factor → r1 = 0) ∧
        (i ≠ .isprime → i ≠ .factor → flag = false)) ∨
      ((i = .modinv ∨ i = .modexp) ∧ (commandCompletion i a b m : Completion W) = .raise .modZero) ∨
      (i = .modinv ∧ (commandCompletion i a b m : Completion W) = .raise .notInvertible) := by
  cases i with
  | isprime => exact .inl ⟨_, _, _, rfl, fun _ => rfl, fun h => absurd rfl h⟩
  | gcd => exact .inl ⟨_, _, _, rfl, fun _ => rfl, fun _ _ => rfl⟩
  | modinv =>
    by_cases h0 : b = 0
    · exact .inr (.inl ⟨.inl rfl, modinvCompletion_zero h0 a⟩)
    by_cases hg : Nat.gcd a b = 1
    · exact .inl ⟨_, _, _, modinvCompletion_coprime h0 hg, fun _ => rfl, fun _ _ => rfl⟩
    · exact .inr (.inr ⟨rfl, modinvCompletion_not_coprime h0 hg⟩)
  | modexp =>
    by_cases h0 : m = 0
    · exact .inr (.inl ⟨.inr rfl, modexpCompletion_zero h0 a b⟩)
    · exact .inl ⟨_, _, _, modexpCompletion_pos h0 a b, fun _ => rfl, fun _ _ => rfl⟩
  | factor =>
    have hne {p : Prop} (h : Instr.factor ≠ .factor) : p := absurd rfl h
    by_cases hn : a = 0 ∨ a = 1 ∨ a.Prime
    · exact .inl ⟨_, _, _, factorCompletion_not_found hn, hne, fun _ => hne⟩
    · simp only [not_or] at hn
      obtain ⟨h0, h1, hp⟩ := hn
      exact .inl ⟨_, _, _, factorCompletion_composite h0 h1 hp, hne, fun _ => hne⟩

/-- Settles O26: the frame is that of every completion; the columns of R30 and R26 are `commandCompletion_cases`. -/
theorem everyCommandCompletesWithinItsFrame : Obligations.EveryCommandCompletesWithinItsFrame := by
  intro i s
  refine ⟨_, (exec_eq_execAt i s).trans (execAt_eq i s), complete_opa _ s, complete_opb _ s, complete_opc _ s,
    complete_cmd _ s, complete_turns _ s, complete_returned _ s, complete_busy _ s, complete_done _ s, ?_⟩
  obtain ⟨r0, r1, flag, hc, hr1, hflag⟩ | ⟨hi, hc⟩ | ⟨hi, hc⟩ :=
    commandCompletion_cases (W := 32) i s.opa.toNat s.opb.toNat s.opc.toNat <;> rw [hc]
  · exact ⟨hr1, hflag, fun _ _ => rfl, fun _ => rfl, fun h => by simp [complete] at h⟩
  · have herr (h : i ≠ .modinv) (h' : i ≠ .modexp) : False := hi.elim h h'
    exact ⟨fun _ => rfl, fun _ _ => rfl, fun h h' => (herr h h').elim, fun h => by simp [complete] at h,
      fun _ => ⟨rfl, rfl, rfl, .inl rfl⟩⟩
  · exact ⟨fun _ => rfl, fun _ _ => rfl, fun h => absurd hi h, fun h => by simp [complete] at h,
      fun _ => ⟨rfl, rfl, rfl, .inr ⟨hi, rfl⟩⟩⟩

/-! ### Who changes BUSY -/

theorem stepAt_write {s : State W} {r : Reg} {v : Word W} {rest : List (Turn W)} (h : s.turns = .write r v :: rest) :
    stepAt s = .next (regWrite r v { s with turns := rest }) := stepAt_turn h

theorem stepAt_reset {s : State W} {rest : List (Turn W)} (h : s.turns = .reset :: rest) :
    stepAt s = .next (resetEvent { s with turns := rest }) := stepAt_turn h

theorem stepAt_engine {s : State W} {rest : List (Turn W)} (h : s.turns = .engine :: rest) :
    stepAt s = engineTurn { s with turns := rest } := stepAt_turn h

/-- The engine's turn leaves no command in flight (20_memory.md R43). -/
theorem engineTurn_busy {s t : State W} (h : engineTurn s = .next t) : t.busy = false := by
  rw [engineTurn_eq] at h
  injection h with h
  rw [← h]
  cases hb : s.busy with
  | true => simp
  | false => simpa using hb

/-- A write sets BUSY only as an acceptance of the word written (R39). -/
theorem regWrite_busy_set {s : State W} {r : Reg} {v : Word W} (hb : s.busy = false)
    (h : (regWrite r v s).busy = true) : r = .cmd ∧ (regWrite r v s).cmd = v := by
  obtain ⟨-, hw⟩ | ⟨-, hw⟩ | ⟨-, hw⟩ | ⟨hr, hw⟩ | ⟨-, hw⟩ := regWrite_idle hb r v <;> rw [hw] at h ⊢
  case inr.inr.inr.inl => exact ⟨hr, rfl⟩
  all_goals simp [hb] at h

/-- BUSY is set by the host's command write only (10_state.md R21). -/
theorem stepAt_busy_set {s t : State W} (hs : stepAt s = .next t) (hb : s.busy = false) (ht : t.busy = true) :
    ∃ v rest, s.turns = .write .cmd v :: rest ∧ t.cmd = v := by
  obtain ⟨-, ts, rfl⟩ | ⟨-, ts, rfl⟩ | ⟨r, ts, rfl⟩ | ⟨r, v, rest, hw, rfl⟩ | ⟨rest, -, rfl⟩ := stepAt_cases hs
  · simp at ht
  · simp [hb] at ht
  · simp [hb] at ht
  · obtain ⟨rfl, hcmd⟩ := regWrite_busy_set (s := { s with turns := rest }) hb ht
    exact ⟨v, rest, hw, hcmd⟩
  · simp at ht

/-- BUSY is cleared by reset and by the completion of the command in flight only (R21). -/
theorem stepAt_busy_cleared {s t : State W} (hs : stepAt s = .next t) (hb : s.busy = true) (ht : t.busy = false) :
    (∃ rest, s.turns = .reset :: rest) ∨
      ∃ ts, t = complete (completionOf s.cmd s.opa s.opb s.opc) { s with turns := ts } := by
  obtain ⟨-, hc⟩ | ⟨hi, -⟩ | ⟨r, ts, rfl⟩ | ⟨r, v, rest, -, rfl⟩ | ⟨rest, hr, -⟩ := stepAt_cases hs
  · exact .inr hc
  · simp [hb] at hi
  · simp [hb] at ht
  · rw [regWrite_busy (s := { s with turns := rest }) hb] at ht
    simp [hb] at ht
  · exact .inl ⟨rest, hr⟩

/-- Settles O34: the three turns that decide BUSY, the two lemmas that no other turn changes it, and the lock. -/
theorem busyChangesOnlyAsStated : Obligations.BusyChangesOnlyAsStated := by
  intro s t hs
  have unique {u : State} (h : stepAt s = .next u) : t = u := by
    rw [step_eq_stepAt, h] at hs
    injection hs with hs
    exact hs.symm
  refine ⟨fun v rest hb h => ?accept, fun rest h => ?engine, fun rest h => ?reset, stepAt_busy_set hs,
    stepAt_busy_cleared hs, fun r v rest hb h => ?locked⟩
  case accept => rw [unique (stepAt_write h)]; simp [regWrite, hb]
  case engine => exact engineTurn_busy ((stepAt_engine h).symm.trans hs)
  case reset => rw [unique (stepAt_reset h)]; rfl
  case locked => rw [unique (stepAt_write h)]; exact regWrite_busy (s := { s with turns := rest }) hb r v

/-! ### Who changes a register -/

/-- A write with `BUSY = 0` is read back where the host may write (20_memory.md R37, R39). -/
theorem regValue_regWrite_same {s : State W} {r : Reg} (hb : s.busy = false) (hr : r.writable = true) (v : Word W) :
    regValue r (regWrite r v s) = v := by
  cases r with
  | opa | opb | opc | cmd => simp [regWrite, regValue, hb]
  | status | res0 | res1 | reserved => cases hr

/-- A write to one register leaves every other, STATUS apart. -/
theorem regValue_regWrite_other {q r : Reg} (hq : q ≠ .status) (hne : q ≠ r) (v : Word W) (s : State W) :
    regValue q (regWrite r v s) = regValue q s := by
  cases hb : s.busy with
  | true => rw [regWrite_busy hb]
  | false =>
    obtain ⟨rfl, hw⟩ | ⟨rfl, hw⟩ | ⟨rfl, hw⟩ | ⟨rfl, hw⟩ | ⟨-, hw⟩ := regWrite_idle hb r v <;> rw [hw]
    all_goals cases q <;> simp_all [regValue]

/-- A write to a read-only index or to the reserved one is ignored (R40). -/
theorem regWrite_not_writable {r : Reg} (hr : r.writable = false) (v : Word W) (s : State W) : regWrite r v s = s := by
  cases r with
  | opa | opb | opc | cmd => cases hr
  | status | res0 | res1 | reserved => rfl

/-- A register's value, STATUS apart, changes at a write only with `BUSY = 0` and to the value written to it. -/
theorem regValue_regWrite_ne {s : State W} {q r : Reg} {v : Word W} (hq : q ≠ .status)
    (h : regValue q (regWrite r v s) ≠ regValue q s) :
    s.busy = false ∧ r = q ∧ v = regValue q (regWrite r v s) := by
  have hb : s.busy = false := by
    by_contra hb
    exact h (by rw [regWrite_busy (by simpa using hb)])
  obtain rfl : q = r := by
    by_contra hne
    exact h (regValue_regWrite_other hq hne v s)
  have hw : q.writable = true := by
    by_contra hw
    exact h (by rw [regWrite_not_writable (by simpa using hw)])
  exact ⟨hb, rfl, (regValue_regWrite_same hb hw v).symm⟩

/-- A completion changes no register that the host may write (20_memory.md R43). -/
theorem regValue_complete {q : Reg} (hq : q.writable = true) (c : Completion W) (s : State W) :
    regValue q (complete c s) = regValue q s := by
  cases q with
  | opa | opb | opc | cmd => simp [regValue]
  | status | res0 | res1 | reserved => cases hq

/-- A register that the host may write changes, reset aside, by its write of the new value only (10_state.md R13). -/
theorem stepAt_writable_changed {s t : State W} {q : Reg} (hs : stepAt s = .next t)
    (hr : ∀ rest, s.turns ≠ .reset :: rest) (hq : q.writable = true) (h : regValue q t ≠ regValue q s) :
    s.busy = false ∧ ∃ rest, s.turns = .write q (regValue q t) :: rest := by
  have hst : q ≠ .status := by rintro rfl; cases hq
  have outside (ts : List (Turn W)) (vs : List (Word W)) :
      regValue q { s with turns := ts, returned := vs } = regValue q s := by cases q <;> rfl
  obtain ⟨-, ts, rfl⟩ | ⟨-, ts, rfl⟩ | ⟨r, ts, rfl⟩ | ⟨r, v, rest, hw, rfl⟩ | ⟨rest, hw, -⟩ := stepAt_cases hs
  · exact absurd ((regValue_complete hq _ _).trans (outside ts s.returned)) h
  · exact absurd (outside ts s.returned) h
  · exact absurd (outside ts _) h
  · obtain ⟨hb, rfl, hv⟩ := regValue_regWrite_ne hst (h.trans_eq (outside rest s.returned).symm)
    exact ⟨hb, rest, hv ▸ hw⟩
  · exact absurd hw (hr rest)

/-- No write touches the results (R40). -/
@[simp] theorem regWrite_res0 (r : Reg) (v : Word W) (s : State W) : (regWrite r v s).res0 = s.res0 := by
  cases r <;> simp only [regWrite] <;> split <;> rfl

@[simp] theorem regWrite_res1 (r : Reg) (v : Word W) (s : State W) : (regWrite r v s).res1 = s.res1 := by
  cases r <;> simp only [regWrite] <;> split <;> rfl

/-- The results change, reset aside, by a completion only (R18, R19). -/
theorem stepAt_result_changed {s t : State W} (hs : stepAt s = .next t) (hr : ∀ rest, s.turns ≠ .reset :: rest)
    (h : t.res0 ≠ s.res0 ∨ t.res1 ≠ s.res1) : s.busy = true ∧ t.busy = false ∧ t.done = true := by
  obtain ⟨hb, ts, rfl⟩ | ⟨-, ts, rfl⟩ | ⟨r, ts, rfl⟩ | ⟨r, v, rest, -, rfl⟩ | ⟨rest, hw, -⟩ := stepAt_cases hs
  · exact ⟨hb, complete_busy _ _, complete_done _ _⟩
  · simp at h
  · simp at h
  · simp at h
  · exact absurd hw (hr rest)

/-- Settles O36: one lemma for the four registers the host writes, one for the results. -/
theorem registersChangeOnlyByTheirWriters : Obligations.RegistersChangeOnlyByTheirWriters := by
  intro s t hs hr
  have host {q : Reg} (hq : q.writable = true) := stepAt_writable_changed (q := q) hs hr hq
  exact ⟨host (q := .opa) rfl, host (q := .opb) rfl, host (q := .opc) rfl, host (q := .cmd) rfl,
    stepAt_result_changed hs hr⟩

end Sys2Proof.Machine
end

section
/-! PROOFS. The host's transactions and the engine's step (20_memory.md sections 3 and 4): what a turn of each kind
does, what can happen while a command is in flight, and how a command word chooses its command. -/

namespace Sys2Proof.Machine

variable {W : Nat}

/-! ### Register indices and the value of STATUS -/

@[simp] theorem Reg.ofIndex_index (r : Reg) : Reg.ofIndex r.index = r := by cases r <;> rfl

/-- Every 3-bit index is the index of its register (10_state.md R13). -/
theorem Reg.index_ofIndex (i : BitVec 3) : (Reg.ofIndex i).index = i := by decide +revert

/-- Appending one bit below doubles the value and adds the bit. -/
theorem toNat_append_ofBool {n : Nat} (x : BitVec n) (b : Bool) :
    (x ++ BitVec.ofBool b).toNat = x.toNat * 2 + b.toNat := by
  rw [BitVec.toNat_append, BitVec.toNat_ofBool, ← Nat.shiftLeft_add_eq_or_of_lt (by cases b <;> decide),
    Nat.shiftLeft_eq, Nat.pow_one]

/-- STATUS as the sum of its fields, each at its weight (10_state.md R20; 20_memory.md R36). -/
theorem statusWord_eq_ofNat (s : State W) : statusWord s = BitVec.ofNat W
    (s.errcode.toNat * 16 + s.flag.toNat * 8 + s.err.toNat * 4 + s.done.toNat * 2 + s.busy.toNat) := by
  have hbits : (statusBits s).toNat =
      s.errcode.toNat * 16 + s.flag.toNat * 8 + s.err.toNat * 4 + s.done.toNat * 2 + s.busy.toNat := by
    simp only [statusBits, toNat_append_ofBool]
    omega
  rw [statusWord, ← hbits, BitVec.ofNat_toNat]

/-! ### Host transactions -/

theorem stepAt_read {s : State W} {r : Reg} {rest : List (Turn W)} (h : s.turns = .read r :: rest) :
    stepAt s = .next (regRead r { s with turns := rest }) := stepAt_turn h

/-- A write while BUSY is used up and does nothing else (20_memory.md R37, R38, R40). -/
theorem stepAt_write_busy {s : State W} {r : Reg} {v : Word W} {rest : List (Turn W)} (hb : s.busy = true)
    (h : s.turns = .write r v :: rest) : stepAt s = .next { s with turns := rest } := by
  rw [stepAt_write h, regWrite_busy (s := { s with turns := rest }) hb]

/-- Settles O5: the register at an index is read by name; STATUS is the sum that R36 writes. -/
theorem readReturnsTheRegisterAndChangesNothing : Obligations.ReadReturnsTheRegisterAndChangesNothing := by
  intro s i rest h
  obtain ⟨r, rfl⟩ : ∃ r : Reg, r.index = i := ⟨_, Reg.index_ofIndex i⟩
  rw [Reg.ofIndex_index] at h
  rw [step_eq_stepAt, stepAt_read h]
  cases r with
  | status =>
    exact congrArg (fun v => Host.Outcome.next { s with turns := rest, returned := s.returned ++ [v] })
      (statusWord_eq_ofNat s)
  | opa | opb | opc | cmd | res0 | res1 | reserved => rfl

/-- Settles O6: with `BUSY = 0` the write is the update of its register; with `BUSY = 1` it is used up. -/
theorem operandWriteStoresOrIsIgnored : Obligations.OperandWriteStoresOrIsIgnored := by
  intro s v rest
  refine ⟨fun hb => ⟨fun h => ?_, fun h => ?_, fun h => ?_⟩, fun hb h => ?_⟩
  · rw [step_eq_stepAt, stepAt_write h]; simp [regWrite, hb]
  · rw [step_eq_stepAt, stepAt_write h]; simp [regWrite, hb]
  · rw [step_eq_stepAt, stepAt_write h]; simp [regWrite, hb]
  · obtain h | h | h := h <;> exact stepAt_write_busy hb h

/-- Settles O9: the registers at the indices from 4 up are those that no write reaches. -/
theorem readOnlyAndReservedWritesAreIgnored : Obligations.ReadOnlyAndReservedWritesAreIgnored := by
  intro s i v rest hi h
  obtain ⟨r, rfl⟩ : ∃ r : Reg, r.index = i := ⟨_, Reg.index_ofIndex i⟩
  rw [Reg.ofIndex_index] at h
  have hr : r.writable = false := by
    cases r with
    | opa | opb | opc | cmd => exact absurd hi (by decide)
    | status | res0 | res1 | reserved => rfl
  rw [step_eq_stepAt, stepAt_write h, regWrite_not_writable hr]

/-! ### While a command is in flight -/

/-- While BUSY every step, reset aside, touches the world outside only or is the completion of the command in flight on
its operands (20_memory.md R38, R39, R43). -/
theorem stepAt_in_flight {s t : State W} (hb : s.busy = true) (hr : ∀ rest, s.turns ≠ .reset :: rest)
    (hs : stepAt s = .next t) :
    (∃ ts vs, t = { s with turns := ts, returned := vs }) ∨
      ∃ ts, t = complete (completionOf s.cmd s.opa s.opb s.opc) { s with turns := ts } := by
  obtain ⟨-, hc⟩ | ⟨hi, -⟩ | ⟨r, ts, rfl⟩ | ⟨r, v, rest, -, rfl⟩ | ⟨rest, hw, -⟩ := stepAt_cases hs
  · exact .inr hc
  · exact absurd (hi.symm.trans hb) Bool.false_ne_true
  · exact .inl ⟨ts, _, rfl⟩
  · exact .inl ⟨rest, s.returned, regWrite_busy (s := { s with turns := rest }) hb r v⟩
  · exact absurd hw (hr rest)

/-- Settles O7: the write is used up; no step but completion and reset touches the command in flight. -/
theorem commandWriteWhileBusyIsLost : Obligations.CommandWriteWhileBusyIsLost := by
  refine ⟨fun s v rest hb h => stepAt_write_busy hb h, fun s t hb hr hs => ?_⟩
  obtain ⟨ts, vs, rfl⟩ | hc := stepAt_in_flight hb hr hs
  · exact .inl ⟨hb, rfl, rfl, rfl, rfl⟩
  · exact .inr hc

/-- A word that is no command ends with ILLEGAL_CMD (30_encoding.md R58). -/
theorem completionOf_not_command {c : Word W} (h : ∀ i, decode c ≠ .command i) (a b m : Word W) :
    completionOf c a b m = .raise .illegalCmd := by
  cases hd : decode c with
  | command i => exact absurd hd (h i)
  | illegal why => exact completionOf_illegal hd a b m

/-- Settles O8: the acceptance, then the lock: neither a turn of the world outside nor the completion changes an operand
or CMD. -/
theorem commandWriteIsAccepted : Obligations.CommandWriteIsAccepted := by
  refine ⟨fun s v rest hb h => ?accepted, fun s t hb hr hs => ?locked,
    fun v a b m h => completionOf_not_command h a b m⟩
  case accepted =>
    rw [step_eq_stepAt, stepAt_write h]
    simp [regWrite, hb, acceptCommand, clearOutcome]
  case locked =>
    obtain ⟨ts, vs, rfl⟩ | ⟨ts, rfl⟩ := stepAt_in_flight hb hr hs
    · exact ⟨rfl, rfl, rfl, rfl⟩
    · exact ⟨complete_opa _ _, complete_opb _ _, complete_opc _ _, complete_cmd _ _⟩

/-! ### The engine's step -/

theorem engineTurn_busy_eq {s : State W} (h : s.busy = true) :
    engineTurn s = .next (complete (completionOf s.cmd s.opa s.opb s.opc) s) := by
  rw [engineTurn_eq, if_pos h]

theorem engineTurn_idle {s : State W} (h : s.busy = false) : engineTurn s = .next s := by
  simp [engineTurn, h]

/-- On a legal word the engine's step is the command's own meaning (20_memory.md R43, R44). -/
theorem engineComplete_command {s : State W} {i : Instr} (h : decode s.cmd = .command i) :
    engineComplete s = execAt i s := by
  simp only [engineComplete, h]

theorem engineTurn_command {s : State W} {i : Instr} (hb : s.busy = true) (h : decode s.cmd = .command i) :
    engineTurn s = execAt i s := by
  rw [engineTurn, if_pos hb, engineComplete_command h]

/-- Settles O12: idle or completing by the lemmas of the engine's turn, each kind of completion field by field; enabled
until taken by `stepAt_in_flight`. -/
theorem completeWritesTheOutcomeInOneStep : Obligations.CompleteWritesTheOutcomeInOneStep := by
  refine ⟨fun s rest h => ⟨fun hb => ?idle, fun hb => ?completes⟩, fun s t hb hr hs => ?enabled⟩
  case idle => rw [step_eq_stepAt, stepAt_engine h, engineTurn_idle (s := { s with turns := rest }) hb]
  case completes =>
    rw [step_eq_stepAt, stepAt_engine h, engineTurn_busy_eq (s := { s with turns := rest }) hb]
    cases completionOf s.cmd s.opa s.opb s.opc with
    | ret r0 r1 flag => rfl
    | raise code => cases code <;> rfl
  case enabled =>
    obtain ⟨ts, vs, rfl⟩ | hc := stepAt_in_flight hb hr hs
    · exact .inl hb
    · exact .inr hc

/-- Settles O11: each of the three turns is the engine's, and on a legal word that is the command's meaning. -/
theorem stepRunsTheDecodedCommand : Obligations.StepRunsTheDecodedCommand := by
  intro s i hb hd
  simp only [step_eq_stepAt, exec_eq_execAt]
  refine ⟨fun rest h => ?engine, fun h => ?none, fun rest h => ?wait⟩
  case engine => rw [stepAt_engine h, engineTurn_command (s := { s with turns := rest }) hb hd]
  case none => rw [stepAt_no_turn h, engineTurn_command hb hd]
  case wait =>
    rw [stepAt_turn h, takeTurn, waitTurn_complete (s := { s with turns := rest }) hb, ← h]
    exact engineComplete_command hd

/-! ### The command word -/

/-- The assigned opcodes are 1 to 5 (30_encoding.md R56). -/
theorem opcode_range (i : Instr) : 1 ≤ i.opcode.toNat ∧ i.opcode.toNat ≤ 5 := by cases i <;> decide

/-- The decoder takes a word as a command exactly when it holds that command's opcode and nothing above it
(30_encoding.md R53, R56, R57). -/
theorem decode_eq_command_iff (c : Word W) (i : Instr) : decode c = .command i ↔ c.toNat = i.opcode.toNat := by
  simp only [decode, ne_eq, rsvdField_eq_zero_iff, opcodeField_toNat]
  have hi := opcode_range i
  by_cases h : c.toNat / 16 = 0
  · have hlt : c.toNat < 16 := by omega
    rw [if_neg (not_not_intro h), Nat.mod_eq_of_lt hlt]
    generalize c.toNat = n at hlt ⊢
    cases i <;> decide +revert
  · rw [if_pos h]
    exact iff_of_false Decoded.noConfusion (by omega)

/-- Settles O13: a word below 16 is its opcode, which `decode_eq_command_iff` reads; no other word is a command. -/
theorem execFollowsTheCommandWord : Obligations.ExecFollowsTheCommandWord := by
  intro c a b m
  have command (i : Instr) (h : c.toNat = i.opcode.toNat) :
      completionOf c a b m = commandCompletion i a.toNat b.toNat m.toNat :=
    completionOf_command ((decode_eq_command_iff c i).2 h) a b m
  have illegal (h : ∀ i : Instr, c.toNat ≠ i.opcode.toNat) : completionOf c a b m = .raise .illegalCmd :=
    completionOf_not_command (fun i hi => h i ((decode_eq_command_iff c i).1 hi)) a b m
  split
  next h => exact illegal fun i => by have := opcode_range i; omega
  next h =>
    split
    next ho => exact command .isprime (show c.toNat = 1 by omega)
    next ho => exact command .gcd (show c.toNat = 2 by omega)
    next ho => exact command .modinv (show c.toNat = 3 by omega)
    next ho => exact command .modexp (show c.toNat = 4 by omega)
    next ho => exact command .factor (show c.toNat = 5 by omega)
    next => exact illegal fun i => by have := opcode_range i; simp only [imp_false] at *; omega

end Sys2Proof.Machine
end

section
/-! PROOFS. The signal-level binding (20_memory.md section 6): an edge as turns of the machine, what it does to the
state before it, and the latency of a command. -/

namespace Sys2Proof.Machine

variable {W : Nat}

/-! ### The transaction of an edge -/

/-- The turn of the transaction that the pins present, if they present one (20_memory.md R51). -/
def busTurns (p : Pins W) : List (Turn W) :=
  if p.sel then [if p.we then .write (Reg.ofIndex p.addr) p.wdata else .read (Reg.ofIndex p.addr)] else []

/-- A write acts alike whatever turns are still to come. -/
theorem regWrite_with_turns (r : Reg) (v : Word W) (s : State W) (ts : List (Turn W)) :
    regWrite r v { s with turns := ts } = { regWrite r v s with turns := ts } := by
  cases r <;> simp only [regWrite] <;> split <;> rfl

/-- A run over the pins' turns does their transaction and goes on from there. -/
theorem run_busTurns (p : Pins W) (s : State W) (ts : List (Turn W)) (n : Nat) :
    run ((busTurns p).length + n) { s with turns := busTurns p ++ ts } =
      run n { busTransaction p s with turns := ts } := by
  unfold busTurns busTransaction
  cases p.sel with
  | false => simp
  | true =>
    simp only [if_true, List.length_singleton, Nat.add_comm 1 n]
    cases p.we with
    | false => exact run_succ (stepAt_read rfl) n
    | true =>
      have hw := stepAt_write (s := { s with turns := .write (Reg.ofIndex p.addr) p.wdata :: ts }) rfl
      exact run_succ (hw.trans (congrArg _ (regWrite_with_turns _ _ s ts))) n

theorem busTransaction_turns (p : Pins W) (s : State W) : (busTransaction p s).turns = s.turns := by
  unfold busTransaction
  split
  · split
    · exact regWrite_turns _ _ s
    · exact regRead_turns _ s
  · rfl

theorem busTransaction_read {p : Pins W} (hsel : p.sel = true) (hwe : p.we = false) (s : State W) :
    busTransaction p s = regRead (Reg.ofIndex p.addr) s := by
  simp [busTransaction, hsel, hwe]

theorem busTransaction_write {p : Pins W} (hsel : p.sel = true) (hwe : p.we = true) (s : State W) :
    busTransaction p s = regWrite (Reg.ofIndex p.addr) p.wdata s := by
  simp [busTransaction, hsel, hwe]

/-- While BUSY a transaction can only read: writes are ignored (20_memory.md R37, R38, R40). -/
theorem busTransaction_in_flight {s : State W} (hb : s.busy = true) (p : Pins W) :
    ∃ vs, busTransaction p s = { s with returned := vs } := by
  unfold busTransaction
  split
  · split
    · exact ⟨s.returned, regWrite_busy hb _ _⟩
    · exact ⟨_, rfl⟩
  · exact ⟨s.returned, rfl⟩

/-! ### What an edge does -/

/-- An edge without `rst` at which no completion is due is its transaction (R52). -/
theorem clockEdge_transaction {p : Pins W} {due : Bool} {s : State W} (hr : p.rst = false)
    (h : (s.busy && due) = false) : clockEdge p due s = .next (busTransaction p s) := by
  simp [clockEdge, hr, h]

/-- A completion due at an edge takes place on the command and the operands before it, whatever transaction the pins
present (R52). -/
theorem clockEdge_completes {p : Pins W} {s : State W} (hr : p.rst = false) (hb : s.busy = true) :
    clockEdge p true s =
      .next (complete (completionOf s.cmd s.opa s.opb s.opc) (busTransaction p s)) := by
  obtain ⟨vs, hbus⟩ := busTransaction_in_flight hb p
  simp [clockEdge, hr, hb, engineComplete_eq, hbus]

theorem clockEdge_rst {p : Pins W} (hr : p.rst = true) (due : Bool) (s : State W) :
    clockEdge p due s = .next (resetEdge p s) := by
  simp [clockEdge, hr]

/-- An edge without `rst` as turns: the transaction, then the engine's turn if a completion is due (R52). -/
theorem run_edge_without_rst {p : Pins W} {due : Bool} {s : State W} (hr : p.rst = false) :
    run (busTurns p ++ if s.busy && due then [Turn.engine] else []).length
      { s with turns := busTurns p ++ (if s.busy && due then [Turn.engine] else []) ++ s.turns } =
      clockEdge p due s := by
  rw [List.length_append, List.append_assoc, run_busTurns, ← busTransaction_turns p s]
  cases h : s.busy && due with
  | false => exact (clockEdge_transaction hr h).symm
  | true =>
    obtain ⟨hb, rfl⟩ : s.busy = true ∧ due = true := by simpa using h
    obtain ⟨vs, hbus⟩ := busTransaction_in_flight hb p
    rw [clockEdge_completes hr hb, hbus]
    have he := stepAt_engine (s := { s with turns := .engine :: s.turns, returned := vs }) rfl
    exact run_succ (he.trans (engineTurn_busy_eq hb)) 0

/-- An edge with `rst` as turns: reset, then a read if the pins present one (70_reset_and_hazards.md R124). -/
theorem run_edge_with_rst (p : Pins W) (s : State W) (ts : List (Turn W))
    (hts : ts = .reset :: if p.sel && !p.we then [.read (Reg.ofIndex p.addr)] else []) :
    run ts.length { s with turns := ts ++ s.turns } = .next (resetEdge p s) := by
  subst hts
  rw [List.length_cons, run_succ (stepAt_reset rfl), resetEdge]
  cases p.sel && !p.we with
  | false => rfl
  | true => exact run_succ (stepAt_read rfl) 0

/-- Settles O39: the two kinds of edge, each as its turns. -/
theorem clockEdgeIsTransactionThenCompletion : Obligations.ClockEdgeIsTransactionThenCompletion := by
  rintro p due s ts rfl
  cases hr : p.rst with
  | true => exact (run_edge_with_rst p s _ rfl).trans (clockEdge_rst hr due s).symm
  | false => exact run_edge_without_rst hr

/-! ### The state before the edge -/

/-- What the host has read does not enter the registers. -/
theorem complete_returned_arch (c : Completion W) (s : State W) (vs : List (Word W)) :
    (complete c { s with returned := vs }).arch = (complete c s).arch := by cases c <;> rfl

/-- A read at an edge returns the register before it, even at a completion (20_memory.md R52). -/
theorem clockEdge_read_returned {p : Pins W} (hr : p.rst = false) (hsel : p.sel = true) (hwe : p.we = false)
    (due : Bool) (s : State W) :
    ∃ t, clockEdge p due s = .next t ∧ t.returned = s.returned ++ [rdata p s] := by
  have hread := busTransaction_read hsel hwe s
  cases h : s.busy && due with
  | false => exact ⟨_, clockEdge_transaction hr h, by rw [hread]; rfl⟩
  | true =>
    obtain ⟨hb, rfl⟩ : s.busy = true ∧ due = true := by simpa using h
    exact ⟨_, clockEdge_completes hr hb, by rw [complete_returned, hread]; rfl⟩

theorem clockEdge_completes_arch {p : Pins W} {s : State W} (hr : p.rst = false) (hb : s.busy = true) :
    ∃ t, clockEdge p true s = .next t ∧
      t.arch = (complete (completionOf s.cmd s.opa s.opb s.opc) s).arch := by
  obtain ⟨vs, hbus⟩ := busTransaction_in_flight hb p
  exact ⟨_, clockEdge_completes hr hb, by rw [hbus, complete_returned_arch]⟩

theorem resetEdge_arch (p : Pins W) (s : State W) : (resetEdge p s).arch = (State.resetAt W).arch := by
  unfold resetEdge
  split <;> rfl

/-- After reset a register reads its reset value, whatever reset left of the world outside. -/
theorem regValue_resetEvent (r : Reg) (s : State W) : regValue r (resetEvent s) = 0 :=
  (show regValue r (resetEvent s) = regValue r (State.resetAt W) by cases r <;> rfl).trans (regValue_resetAt r)

theorem rdata_resetEdge (q p : Pins W) (s : State W) : rdata q (resetEdge p s) = 0 := by
  rw [← regValue_resetEvent (Reg.ofIndex q.addr) s, rdata, resetEdge]
  split
  · cases Reg.ofIndex q.addr <;> rfl
  · rfl

/-- At an edge with `rst` a read returns the reset value, and nothing else is returned (R124). -/
theorem resetEdge_returned (p : Pins W) (s : State W) :
    (resetEdge p s).returned = s.returned ++ if p.sel = true ∧ p.we = false then [0] else [] := by
  have hread : (p.sel && !p.we) = true ↔ p.sel = true ∧ p.we = false := by simp
  simp only [resetEdge, hread]
  split
  · rw [regRead_returned, regValue_resetEvent]; rfl
  · exact (List.append_nil _).symm

/-- Settles O40: a read, a completion and reset, each on the state before the edge. -/
theorem edgeActsOnTheStateBeforeIt : Obligations.EdgeActsOnTheStateBeforeIt := by
  refine ⟨fun p due s hr hsel hwe => ?read, fun p s hr hb => clockEdge_completes_arch hr hb,
    fun p due s hr => ⟨resetEdge p s, clockEdge_rst hr due s, resetEdge_arch p s, rfl,
      fun q => rdata_resetEdge q p s, resetEdge_returned p s⟩⟩
  case read =>
    obtain ⟨t, ht, hret⟩ := clockEdge_read_returned hr hsel hwe due s
    exact ⟨t, ht, hret, rfl⟩

/-! ### The latency of a command -/

theorem edges_cons {p : Pins W} {c c' : Clocked W} (h : c.edge p = .next c') (rest : List (Pins W)) :
    Clocked.edges (p :: rest) c = Clocked.edges rest c' := by simp [Clocked.edges, h]

/-- An edge before the completion is due counts one and lets the host read; the registers stay (20_memory.md R52). -/
theorem edge_before_due {p : Pins W} {c : Clocked W} (hr : p.rst = false) (hb : c.block.busy = true)
    (h : c.age + 1 < latency c.block) :
    ∃ vs, c.edge p = .next ⟨{ c.block with returned := vs }, c.age + 1⟩ := by
  obtain ⟨vs, hbus⟩ := busTransaction_in_flight hb p
  refine ⟨vs, ?_⟩
  have hdue : (c.block.busy && decide (latency c.block ≤ c.age + 1)) = false := by simp [h]
  simp only [Clocked.edge, clockEdge_transaction hr hdue, hbus, hb, if_true]

/-- The edge at which the completion is due completes the command (R52). -/
theorem edge_at_due {p : Pins W} {c : Clocked W} (hr : p.rst = false) (hb : c.block.busy = true)
    (h : c.age + 1 = latency c.block) :
    ∃ c', c.edge p = .next c' ∧ c'.block.arch =
      (complete (completionOf c.block.cmd c.block.opa c.block.opb c.block.opc) c.block).arch := by
  obtain ⟨t, ht, harch⟩ := clockEdge_completes_arch hr hb
  have hdue : decide (latency c.block ≤ c.age + 1) = true := by simp [h]
  exact ⟨⟨t, c.age + 1⟩, by simp only [Clocked.edge, hdue, ht, hb, if_true], harch⟩

/-- Fewer edges than are left to the completion leave the registers as they are. -/
theorem edges_before_due {pins : List (Pins W)} {c : Clocked W} (hr : ∀ p ∈ pins, p.rst = false)
    (hb : c.block.busy = true) (h : c.age + pins.length < latency c.block) :
    ∃ c', Clocked.edges pins c = .next c' ∧ c'.block.arch = c.block.arch := by
  induction pins generalizing c with
  | nil => exact ⟨c, rfl, rfl⟩
  | cons p rest ih =>
    rw [List.length_cons] at h
    obtain ⟨hp, hrest⟩ := List.forall_mem_cons.1 hr
    obtain ⟨vs, he⟩ := edge_before_due hp hb (by omega)
    rw [edges_cons he]
    exact ih (c := ⟨{ c.block with returned := vs }, c.age + 1⟩) hrest hb
      (show c.age + 1 + rest.length < latency c.block by omega)

/-- As many edges as are left to the completion end with it, on the operands at their beginning. -/
theorem edges_at_due {pins : List (Pins W)} {c : Clocked W} (hr : ∀ p ∈ pins, p.rst = false)
    (hb : c.block.busy = true) (hage : c.age < latency c.block) (h : c.age + pins.length = latency c.block) :
    ∃ c', Clocked.edges pins c = .next c' ∧ c'.block.arch =
      (complete (completionOf c.block.cmd c.block.opa c.block.opb c.block.opc) c.block).arch := by
  induction pins generalizing c with
  | nil => exact absurd h (by simp; omega)
  | cons p rest ih =>
    rw [List.length_cons] at h
    obtain ⟨hp, hrest⟩ := List.forall_mem_cons.1 hr
    cases rest with
    | nil =>
      obtain ⟨c', he, harch⟩ := edge_at_due hp hb h
      exact ⟨c', edges_cons he [], harch⟩
    | cons q rest =>
      rw [List.length_cons] at h
      obtain ⟨vs, he⟩ := edge_before_due hp hb (by omega)
      rw [edges_cons he]
      obtain ⟨c', hc', harch⟩ := ih (c := ⟨{ c.block with returned := vs }, c.age + 1⟩) hrest hb
        (show c.age + 1 < latency c.block by omega)
        (show c.age + 1 + (rest.length + 1) = latency c.block by omega)
      exact ⟨c', hc', harch.trans (complete_returned_arch _ c.block vs)⟩

/-- The edge that writes CMD with `BUSY = 0` accepts the word and begins the count (20_memory.md R39, R52). -/
theorem edge_accepts {p : Pins W} {c : Clocked W} (hb : c.block.busy = false) (hr : p.rst = false)
    (hsel : p.sel = true) (hwe : p.we = true) (haddr : p.addr = 3) :
    c.edge p = .next ⟨acceptCommand p.wdata c.block, 0⟩ := by
  have hbus : busTransaction p c.block = acceptCommand p.wdata c.block := by
    rw [busTransaction_write hsel hwe, haddr, show Reg.ofIndex 3 = .cmd from rfl]
    simp [regWrite, hb]
  simp [Clocked.edge, clockEdge_transaction, hr, hb, hbus]

/-- Settles O41: after the acceptance the count is 0 and LAT edges are left to the completion. -/
theorem commandCompletesExactlyLatEdgesLater : Obligations.CommandCompletesExactlyLatEdgesLater := by
  intro c start pins hb hr hsel hwe haddr hpins
  rw [edges_cons (edge_accepts hb hr hsel hwe haddr)]
  exact ⟨fun h => edges_before_due hpins rfl ((Nat.zero_add _).trans_lt h),
    fun h => edges_at_due hpins rfl (Nat.succ_pos _) ((Nat.zero_add _).trans h)⟩

end Sys2Proof.Machine
end

section
/-! PROOFS. The encoding of commands and the host notation (30_encoding.md): command words and the opcode map, how a
command word written to CMD ends and what its outcome depends on, WAIT, and the assembly of a listing. -/

namespace Sys2Proof.Machine

open Sys2Proof.Laws

variable {W : Nat}

/-! ### Command words and the opcode map -/

/-- A width of at least 4 bits holds the opcode as it is (30_encoding.md R65). -/
theorem toNat_encode (hW : 4 ≤ W) (i : Instr) : (encode i : Word W).toNat = i.opcode.toNat :=
  BitVec.toNat_setWidth_of_le hW

/-- RSVD of a command's word: the bits from 4 up are 0 (R53, R65). -/
theorem getLsbD_encode_of_ge (i : Instr) {k : Nat} (hk : 4 ≤ k) : (encode i : Word W).getLsbD k = false := by
  rw [encode, BitVec.getLsbD_setWidth, BitVec.getLsbD_of_ge _ k hk, Bool.and_false]

/-- The decoder takes a word as a command exactly when it is that command's encoded word (R56, R57). -/
theorem decode_eq_command_iff_eq_encode (hW : 4 ≤ W) (w : Word W) (i : Instr) :
    decode w = .command i ↔ w = encode i := by
  rw [decode_eq_command_iff, ← toNat_encode hW, BitVec.toNat_inj]

/-- The opcode map has one row for each command: its encoded word, to be matched in all bits (R56, R65). -/
theorem mem_opcodeTable_iff (row : OpcodeRow W) :
    row ∈ opcodeTable W ↔ row.pattern = encode row.instr ∧ row.mask = BitVec.allOnes W := by
  obtain ⟨i, pattern, mask⟩ := row
  cases i <;> simp [opcodeTable, encode_eq_ofNat, Instr.opcode]

/-- To match a command's row under its mask is to be the command's encoded word. -/
theorem matches_opcodeTable_iff (w : Word W) (i : Instr) :
    (∃ row ∈ opcodeTable W, row.instr = i ∧ w &&& row.mask = row.pattern) ↔ w = encode i := by
  constructor
  · rintro ⟨row, hrow, rfl, hw⟩
    obtain ⟨hpattern, hmask⟩ := (mem_opcodeTable_iff row).1 hrow
    rwa [hmask, hpattern, BitVec.and_allOnes] at hw
  · rintro rfl
    exact ⟨⟨i, encode i, BitVec.allOnes W⟩, (mem_opcodeTable_iff _).2 ⟨rfl, rfl⟩, rfl, BitVec.and_allOnes⟩

/-- Settles O2: an encoded word is the one word that decodes to its command. -/
theorem encodeThenDecodeGivesTheCommand : Obligations.EncodeThenDecodeGivesTheCommand := by
  intro W i hW _
  have h4 : 4 ≤ W := Nat.le_trans (by decide) hW
  exact ⟨(decode_eq_command_iff_eq_encode h4 _ i).2 rfl, commandWordWf_encode h4 i⟩

/-- Settles O3: decoding and matching the table both single out the encoded word. -/
theorem decodeAcceptsExactlyTheOpcodeMap : Obligations.DecodeAcceptsExactlyTheOpcodeMap := by
  intro W w i hW
  have h := decode_eq_command_iff_eq_encode (Nat.le_trans (by decide) hW) w i
  exact ⟨h.trans (matches_opcodeTable_iff w i).symm, h⟩

/-- Settles O44: the word's number and bits, the command's row, and the rows of the printed table by evaluation. -/
theorem commandWordIsTheOpcodeZeroExtended : Obligations.CommandWordIsTheOpcodeZeroExtended := by
  refine ⟨fun W i hW => ⟨?number, fun k hk => getLsbD_encode_of_ge i hk, ?row⟩, by decide⟩
  case number =>
    rw [toNat_encode (Nat.le_trans (by decide) hW)]
    cases i <;> rfl
  case row =>
    exact ⟨⟨i, encode i, BitVec.allOnes W⟩, (mem_opcodeTable_iff _).2 ⟨rfl, rfl⟩, rfl, rfl,
      fun k hk => by simp [hk]⟩

/-- Settles O1: closed words, by evaluation of the decoder. -/
theorem decodeOfWordsFromTheOpcodeMap : Obligations.DecodeOfWordsFromTheOpcodeMap := by
  unfold Obligations.DecodeOfWordsFromTheOpcodeMap
  decide

/-! ### A command word from acceptance to completion -/

/-- With `BUSY = 0` a command write is accepted, whatever the word (20_memory.md R39). -/
theorem stepAt_write_cmd_idle {s : State W} {w : Word W} {rest : List (Turn W)} (hb : s.busy = false)
    (h : s.turns = .write .cmd w :: rest) : stepAt s = .next (acceptCommand w { s with turns := rest }) := by
  rw [stepAt_write h]
  simp [regWrite, hb]

/-- With `BUSY = 1` the engine's turn completes the command in flight (R43). -/
theorem stepAt_engine_in_flight {s : State W} {rest : List (Turn W)} (hb : s.busy = true)
    (h : s.turns = .engine :: rest) :
    stepAt s = .next (complete (completionOf s.cmd s.opa s.opb s.opc) { s with turns := rest }) := by
  rw [stepAt_engine h]
  exact engineTurn_busy_eq (s := { s with turns := rest }) hb

/-- The state after the word `w` has been accepted and has completed on the operands of `s`. -/
def issue (w : Word W) (s : State W) : State W :=
  complete (completionOf w s.opa s.opb s.opc) (acceptCommand w s)

@[simp] theorem issue_busy (w : Word W) (s : State W) : (issue w s).busy = false := complete_busy _ _

@[simp] theorem issue_turns (w : Word W) (s : State W) : (issue w s).turns = s.turns := complete_turns _ _

/-- A command write and the engine's turn issue the word. -/
theorem run_write_cmd_engine {s : State W} {w : Word W} {rest : List (Turn W)} (hb : s.busy = false)
    (h : s.turns = .write .cmd w :: .engine :: rest) : run 2 s = .next (issue w { s with turns := rest }) := by
  rw [run_succ (stepAt_write_cmd_idle hb h)]
  exact run_succ (stepAt_engine_in_flight rfl rfl) 0

/-- Issuing a word leaves the operands, so that issuing it again writes the same outcome over itself (30_encoding.md
R67). -/
theorem issue_issue (w : Word W) (s : State W) (ts : List (Turn W)) :
    issue w { issue w s with turns := ts } = { issue w s with turns := ts } := by
  simp only [issue, complete_opa, complete_opb, complete_opc, acceptCommand_opa, acceptCommand_opb, acceptCommand_opc]
  cases completionOf w s.opa s.opb s.opc <;> rfl

/-- Settles O37: both halves of the run issue the word, the second one on the state that the first one left. -/
theorem reissueGivesTheSameOutcome : Obligations.ReissueGivesTheSameOutcome := by
  intro s w rest hb h
  exact ⟨_, _, run_write_cmd_engine hb h, run_write_cmd_engine (issue_busy w _) (issue_turns w _), issue_issue w _ rest⟩

/-- A word with RSVD not 0, OPCODE 0 or OPCODE from 6 up is no command (R58). -/
theorem decode_ne_command_of_illegal {w : Word W}
    (h : w.toNat / 16 ≠ 0 ∨ w.toNat % 16 = 0 ∨ 6 ≤ w.toNat % 16) (i : Instr) : decode w ≠ .command i := by
  rw [ne_eq, decode_eq_command_iff]
  have := opcode_range i
  omega

/-- STATUS after a fault completion: the code, ERR and DONE (10_state.md R20; 60_exceptions.md R113). -/
theorem statusWord_faultCompletion (code : FaultCode) (s : State W) :
    statusWord (faultCompletion code s) = BitVec.ofNat W (code.errcode.toNat * 16 + 6) := by
  rw [statusWord_eq_ofNat]
  rfl

/-- Settles O4: the acceptance as of every word, then the fault completion with ILLEGAL_CMD, whose STATUS is 0x16. -/
theorem illegalWordCompletesWithIllegalCmd : Obligations.IllegalWordCompletesWithIllegalCmd := by
  intro w s rest hw hb h
  have hfault : completionOf w s.opa s.opb s.opc = .raise .illegalCmd :=
    completionOf_not_command (decode_ne_command_of_illegal hw) _ _ _
  have haccept := stepAt_write_cmd_idle hb h
  have hcomplete := stepAt_engine_in_flight (s := acceptCommand w { s with turns := .engine :: rest }) rfl rfl
  simp only [acceptCommand_cmd, acceptCommand_opa, acceptCommand_opb, acceptCommand_opc, hfault] at hcomplete
  exact ⟨_, _, haccept, rfl, rfl, hcomplete, rfl, statusWord_faultCompletion .illegalCmd _⟩

/-! ### What the outcome of a command depends on -/

/-- A command ends alike in two states that agree on the operand registers it reads (R55). -/
theorem commandCompletion_congr {i : Instr} {s s' : State W}
    (h : ∀ r ∈ operandRegs i, regValue r s = regValue r s') :
    (commandCompletion i s.opa.toNat s.opb.toNat s.opc.toNat : Completion W) =
      commandCompletion i s'.opa.toNat s'.opb.toNat s'.opc.toNat := by
  cases i <;> simp_all [operandRegs, regValue, commandCompletion]

/-- A completion writes the outcome fields without regard to the state before it (20_memory.md R43). -/
theorem complete_outcome (c : Completion W) (s s' : State W) :
    (complete c s).res0 = (complete c s').res0 ∧ (complete c s).res1 = (complete c s').res1 ∧
      (complete c s).flag = (complete c s').flag ∧ (complete c s).err = (complete c s').err ∧
      (complete c s).errcode = (complete c s').errcode := by
  cases c <;> exact ⟨rfl, rfl, rfl, rfl, rfl⟩

/-- Settles O27: the two states complete in the same way, and the completion alone decides the outcome. -/
theorem outcomeDependsOnlyOnOperandsRead : Obligations.OutcomeDependsOnlyOnOperandsRead := by
  intro i s s' h
  have exec_eq (u : State) := (exec_eq_execAt i u).trans (execAt_eq i u)
  refine ⟨_, _, exec_eq s, exec_eq s', ?_⟩
  rw [commandCompletion_congr h]
  exact complete_outcome _ s s'

/-! ### WAIT -/

theorem stepAt_wait_idle {s : State W} {n : Nat} {rest : List (Turn W)} (hb : s.busy = false)
    (h : s.turns = .wait n :: rest) : stepAt s = .next (regRead .status { s with turns := rest }) := by
  rw [stepAt_turn h]
  exact waitTurn_idle (s := { s with turns := rest }) hb n

theorem stepAt_wait_poll {s : State W} {n : Nat} {rest : List (Turn W)} (hb : s.busy = true)
    (h : s.turns = .wait (n + 1) :: rest) :
    stepAt s = .next { s with turns := .wait n :: rest, returned := s.returned ++ [regValue .status s] } := by
  rw [stepAt_turn h]
  exact waitTurn_poll (s := { s with turns := rest }) hb n

/-- A WAIT without a poll left has the engine complete the command and stays the next turn (30_encoding.md R62). -/
theorem stepAt_wait_complete {s : State W} {rest : List (Turn W)} (hb : s.busy = true)
    (h : s.turns = .wait 0 :: rest) :
    stepAt s = .next (complete (completionOf s.cmd s.opa s.opb s.opc) s) := by
  rw [stepAt_turn h, takeTurn, waitTurn_complete (s := { s with turns := rest }) hb, ← h]
  exact engineComplete_eq s

/-- The polls of a WAIT, each of which reads the busy STATUS and changes nothing else. -/
theorem run_wait_polls {n : Nat} {s : State W} {rest : List (Turn W)} (hb : s.busy = true)
    (h : s.turns = .wait n :: rest) (k : Nat) :
    run (n + k) s = run k
      { s with turns := .wait 0 :: rest, returned := s.returned ++ List.replicate n (regValue .status s) } := by
  induction n generalizing s with
  | zero => rw [List.replicate_zero, List.append_nil, Nat.zero_add, ← h]
  | succ n ih =>
    have hreads : s.returned ++ List.replicate (n + 1) (regValue .status s) =
        s.returned ++ [regValue .status s] ++ List.replicate n (regValue .status s) := List.append_cons _ _ _
    rw [Nat.add_right_comm, run_succ (stepAt_wait_poll hb h), hreads]
    exact ih hb rfl

/-- The end of a WAIT: the completion, and the read that finds `BUSY = 0`. -/
theorem run_wait_completes {s : State W} {rest : List (Turn W)} (hb : s.busy = true) (h : s.turns = .wait 0 :: rest) :
    run 2 s =
      .next (regRead .status { complete (completionOf s.cmd s.opa s.opb s.opc) s with turns := rest }) := by
  rw [run_succ (stepAt_wait_complete hb h)]
  exact run_succ (stepAt_wait_idle (complete_busy _ s) ((complete_turns _ s).trans h)) 0

/-- Neither what the host still has to do nor what it has read enters the registers. -/
theorem complete_outside_arch (c : Completion W) (s : State W) (ts : List (Turn W)) (vs : List (Word W)) :
    (complete c { s with turns := ts, returned := vs }).arch = (complete c s).arch := by cases c <;> rfl

/-- Settles O38: an idle WAIT is one read; on a BUSY block the polls come first, then the completion and the last
read. -/
theorem waitEndsWithTheCompletedCommand : Obligations.WaitEndsWithTheCompletedCommand := by
  intro n s rest h
  refine ⟨fun hb => stepAt_wait_idle hb h, fun hb => ?_⟩
  refine ⟨_, (run_wait_polls hb h 2).trans (run_wait_completes hb rfl), rfl, ?quiescent,
    complete_outside_arch _ s _ _, ?returned⟩
  case quiescent => simp [quiescent]
  case returned => exact congrArg (· ++ [_]) (complete_returned _ _)

/-! ### The assembly of a listing -/

/-- The values a host may offer (00_scope.md R9; 30_encoding.md R68). -/
theorem valueWf_iff (v : Int) (W : Nat) : valueWf v W = true ↔ 0 ≤ v ∧ v < 2 ^ W := by
  simp [valueWf]

theorem Reg.writable_iff (r : Reg) : r.writable = true ↔ r = .opa ∨ r = .opb ∨ r = .opc ∨ r = .cmd := by
  cases r <;> decide

/-- A listing assembles exactly when each of its statements is well formed, to the turns of its statements in their
order. -/
theorem assembleFrom_eq (polls : Nat → Nat) (line : Nat) (listing : List HostStmt) :
    (assembleFrom polls line listing : Option (List (Turn W))) =
      if ∀ st ∈ listing, st.wf W = true then some (listing.mapIdx fun k st => st.turn (polls (line + k)))
      else none := by
  induction listing generalizing line with
  | nil => rfl
  | cons st rest ih =>
    rw [assembleFrom, ih]
    cases hst : st.wf W with
    | false => simp [hst]
    | true =>
      simp only [List.forall_mem_cons, hst, true_and, if_true, List.mapIdx_cons, Nat.add_zero,
        Nat.add_right_comm line 1, Nat.add_assoc line]
      split <;> rfl

/-- The statements of a listing are well formed exactly when its `WR` and `RD` are (R62, R68). -/
theorem forall_wf_iff (listing : List HostStmt) (W : Nat) :
    (∀ st ∈ listing, st.wf W = true) ↔
      (∀ r v, HostStmt.wr r v ∈ listing → (r = .opa ∨ r = .opb ∨ r = .opc ∨ r = .cmd) ∧ 0 ≤ v ∧ v < 2 ^ W) ∧
      (∀ r, HostStmt.rd r ∈ listing → r ≠ .reserved) := by
  have wr (r : Reg) (v : Int) : (HostStmt.wr r v).wf W = true ↔
      (r = .opa ∨ r = .opb ∨ r = .opc ∨ r = .cmd) ∧ 0 ≤ v ∧ v < 2 ^ W := by
    rw [HostStmt.wf, Bool.and_eq_true, valueWf_iff, Reg.writable_iff]
  have rd (r : Reg) : (HostStmt.rd r).wf W = true ↔ r ≠ .reserved := decide_eq_true_iff
  constructor
  · exact fun h => ⟨fun r v hm => (wr r v).1 (h _ hm), fun r hm => (rd r).1 (h _ hm)⟩
  · rintro ⟨hwr, hrd⟩ st hm
    cases st with
    | wr r v => exact (wr r v).2 (hwr r v hm)
    | rd r => exact (rd r).2 (hrd r hm)
    | cmd i => cases i <;> rfl
    | wait => rfl

/-- Settles O42: `assembleFrom_eq` from line 1, with the well-formedness of the statements and the turn of each kind
written out. -/
theorem assemblyRefusesExactlyIllFormedListings : Obligations.AssemblyRefusesExactlyIllFormedListings := by
  intro W polls listing _
  rw [← forall_wf_iff, assemble, assembleFrom_eq]
  by_cases hwf : ∀ st ∈ listing, st.wf W = true
  case neg => simp [hwf]
  case pos =>
    rw [if_pos hwf]
    refine ⟨iff_of_true ⟨_, rfl⟩ hwf, ?_⟩
    rintro ts ⟨⟩
    refine ⟨List.length_mapIdx, fun k st hk => ?_⟩
    rw [List.getElem?_mapIdx, hk, Option.map_some, Nat.add_comm 1 k]
    cases st with
    | wr r v =>
      obtain ⟨-, h0, -⟩ := ((forall_wf_iff listing W).1 hwf).1 r v (List.mem_of_getElem? hk)
      obtain ⟨n, rfl⟩ := Int.eq_ofNat_of_zero_le h0
      exact congrArg (fun w => some (Turn.write r w)) (BitVec.ofInt_natCast W n).symm
    | cmd i => cases i <;> simp [HostStmt.turn, encode_eq_ofNat, Instr.opcode]
    | rd r => rfl
    | wait => rfl

/-! ### Pseudo-instructions -/

/-- Settles O43: both sides expand to the same statements by definition (30_encoding.md R64). -/
theorem encryptAndDecryptAreModexp : Obligations.EncryptAndDecryptAreModexp :=
  fun _ _ _ _ _ => ⟨rfl, rfl⟩

end Sys2Proof.Machine
end

section
/-! PROOFS. ISPRIME: the two readings of its answer, trial division and primality (40_primality.md). -/

namespace Sys2Proof.Machine

/-- The whole effect of a command that ends normally (20_memory.md R43): the outcome fields are written, everything
else is kept. -/
theorem exec_eq_of_ret {i : Instr} {s : State} {r0 r1 : Word} {flag : Bool}
    (h : commandCompletion i s.opa.toNat s.opb.toNat s.opc.toNat = .ret r0 r1 flag) :
    exec i s = .next { s with
      res0 := r0, res1 := r1, flag := flag, err := false, errcode := 0, done := true, busy := false } := by
  rw [exec_eq_execAt, execAt_eq, h]
  rfl

/-- Settles O16: the answer is the scan's, and `isPrimeNat_iff` says which numbers pass the scan. -/
theorem isprimeIsTrialDivision : Obligations.IsprimeIsTrialDivision :=
  fun s => ⟨isPrimeNat s.opa.toNat, isPrimeNat_iff s.opa.toNat, exec_eq_of_ret rfl⟩

/-- Settles O17: by `isprimeCompletion_eq`, which rests on the trial division finding the least prime factor. -/
theorem isprimeIffPrime : Obligations.IsprimeIffPrime :=
  fun s => exec_eq_of_ret (isprimeCompletion_eq s.opa.toNat)

end Sys2Proof.Machine
end

section
/-! PROOFS. GCD and MODINV: the greatest common divisor among the common divisors, and the one inverse below the modulus
(41_gcd_modinv.md). -/

namespace Sys2Proof.Machine

variable {W : Nat}

/-- The whole effect of a command that ends with a fault (60_exceptions.md R113): the results and FLAG are cleared, the
code is recorded, everything else is kept. -/
theorem exec_eq_of_raise {i : Instr} {s : State} {code : FaultCode}
    (h : (commandCompletion i s.opa.toNat s.opb.toNat s.opc.toNat : Completion) = .raise code) :
    exec i s = .next { s with
      res0 := 0, res1 := 0, flag := false, err := true, errcode := code.errcode, done := true, busy := false } := by
  rw [exec_eq_execAt, execAt_eq, h]
  rfl

theorem word_eq_zero_iff (w : Word W) : w = 0 ↔ w.toNat = 0 := BitVec.toNat_eq

/-! ### GCD -/

/-- Unless both numbers are 0, their gcd is the greatest of the numbers that divide both (R76). -/
theorem le_gcd_of_dvd {a b k : Nat} (h : ¬(a = 0 ∧ b = 0)) (ha : k ∣ a) (hb : k ∣ b) : k ≤ Nat.gcd a b :=
  Nat.le_of_dvd (Nat.pos_of_ne_zero (mt Nat.gcd_eq_zero_iff.1 h)) (Nat.dvd_gcd ha hb)

/-- Settles O18: the witness is `Nat.gcd`, which fits because it is at most an operand. -/
theorem gcdIsTheGreatestCommonDivisor : Obligations.GcdIsTheGreatestCommonDivisor := by
  intro s
  simp only [word_eq_zero_iff]
  exact ⟨Nat.gcd s.opa.toNat s.opb.toNat, gcd_lt_two_pow s.opa.isLt s.opb.isLt, Nat.gcd_eq_zero_iff.2,
    fun h => ⟨Nat.gcd_dvd_left _ _, Nat.gcd_dvd_right _ _, fun _ => le_gcd_of_dvd h⟩,
    exec_eq_of_ret (gcdCompletion_eq _ _)⟩

/-! ### MODINV -/

/-- Modulo 1 MODINV answers 0, the only natural below the modulus (R84). -/
theorem modinvCompletion_one {m : Nat} (hm : m = 1) (a : Nat) :
    (modinvCompletion a m : Completion W) = .ret 0#W 0#W false := by
  subst hm
  have h0 : modinvNat a 1 = 0 := Nat.lt_one_iff.1 (modinvNat_lt Nat.one_ne_zero)
  rw [modinvCompletion_coprime Nat.one_ne_zero (Nat.gcd_one_right a), h0]

/-- Two inverses of `a` below `m` are the same, because `a` is coprime to `m` and cancels (R81). -/
theorem inverse_unique {a m x y : Nat} (hg : Nat.gcd a m = 1) (hx : x < m) (hy : y < m)
    (h : a * y % m = a * x % m) : y = x :=
  (Nat.ModEq.cancel_left_of_coprime (Nat.gcd_comm m a ▸ hg) h).eq_of_lt_of_lt hy hx

/-- MODINV takes its first operand modulo the second (R81). -/
theorem modinvCompletion_mod (a m : Nat) :
    (modinvCompletion (a % m) m : Completion W) = modinvCompletion a m := by
  simp only [modinvCompletion, Nat.mod_mod]

/-- Settles O19: a clause for each way that MODINV ends; the inverse is `modinvNat`. -/
theorem modinvIsTheUniqueInverse : Obligations.ModinvIsTheUniqueInverse := by
  intro s
  simp only [ne_eq, word_eq_zero_iff]
  refine ⟨fun h0 => exec_eq_of_raise (code := .modZero) (modinvCompletion_zero h0 _),
    fun h0 hg => exec_eq_of_raise (code := .notInvertible) (modinvCompletion_not_coprime h0 hg),
    fun h1 => exec_eq_of_ret (modinvCompletion_one (congrArg BitVec.toNat h1) _),
    fun h1 hg => ?inverse, fun _ => modinvCompletion_mod _ _⟩
  case inverse =>
    have h0 : s.opb.toNat ≠ 0 := by omega
    have hinv : s.opa.toNat * modinvNat s.opa.toNat s.opb.toNat % s.opb.toNat = 1 :=
      (mul_modinvNat_mod h0 hg).trans (Nat.mod_eq_of_lt h1)
    exact ⟨_, modinvNat_lt h0, hinv, fun y hy h => inverse_unique hg (modinvNat_lt h0) hy (h.trans hinv.symm),
      exec_eq_of_ret (modinvCompletion_coprime h0 hg)⟩

end Sys2Proof.Machine
end

section
/-! PROOFS. MODEXP: the exact power, its corner cases, and the RSA round trip (42_modexp.md). -/

namespace Sys2Proof.Machine

/-- The whole effect of MODEXP with a modulus above 0 (R89). -/
theorem exec_modexp_pos {s : State} (h : s.opc.toNat ≠ 0) :
    exec .modexp s = .next { s with
      res0 := Word.ofNat (s.opa.toNat ^ s.opb.toNat % s.opc.toNat)
      res1 := 0, flag := false, err := false, errcode := 0, done := true, busy := false } :=
  exec_eq_of_ret (modexpCompletion_pos h _ _)

/-- Settles O20: the fault on the modulus 0, and otherwise the power, which fits because it is below the modulus. -/
theorem modexpIsTheExactPower : Obligations.ModexpIsTheExactPower := by
  intro s
  simp only [ne_eq, word_eq_zero_iff]
  exact ⟨fun h => exec_eq_of_raise (code := .modZero) (modexpCompletion_zero h _ _),
    fun h => ⟨pow_mod_lt_two_pow h s.opc.isLt _ _, exec_modexp_pos h⟩⟩

/-- What a host reads after MODEXP with a modulus above 0: no fault, no flag, the modulus still in OPC, and the power
as a natural number in RES0, which holds it (R89, R95). -/
theorem exec_modexp_result {s : State} (h : s.opc.toNat ≠ 0) :
    ∃ t, exec .modexp s = .next t ∧ t.err = false ∧ t.flag = false ∧ t.opc = s.opc ∧
      t.res0.toNat = s.opa.toNat ^ s.opb.toNat % s.opc.toNat :=
  ⟨_, exec_modexp_pos h, rfl, rfl, rfl, Word.toNat_ofNat_of_lt (pow_mod_lt_two_pow h s.opc.isLt _ _)⟩

/-- Settles O21: each clause is the power of the exponent 0, modulo 1 or of the base 0. -/
theorem modexpOfZeroAndOne : Obligations.ModexpOfZeroAndOne := by
  intro s h
  rw [ne_eq, word_eq_zero_iff] at h
  obtain ⟨t, hexec, herr, -, -, hres⟩ := exec_modexp_result h
  refine ⟨t, hexec, herr, fun hexp => ?exponentZero, fun hmod => ?modulusOne, fun hbase hexp => ?baseZero⟩
  case exponentZero =>
    have hpow : t.res0.toNat = 1 % s.opc.toNat := by rw [hres, hexp]; rfl
    split
    next hmod => exact BitVec.eq_of_toNat_eq (by rw [hpow, hmod]; rfl)
    next hmod =>
      have hne : s.opc.toNat ≠ 1 := fun h1 => hmod (BitVec.eq_of_toNat_eq h1)
      exact BitVec.eq_of_toNat_eq (by rw [hpow, Nat.mod_eq_of_lt (by omega)]; rfl)
  case modulusOne =>
    rw [word_eq_zero_iff, hres, hmod]
    exact Nat.mod_one _
  case baseZero =>
    rw [ne_eq, word_eq_zero_iff] at hexp
    rw [word_eq_zero_iff] at hbase ⊢
    rw [hres, hbase, Nat.zero_pow (Nat.pos_of_ne_zero hexp), Nat.zero_mod]

/-- Settles O22: a power depends on its base modulo OPC alone. -/
theorem modexpReducesTheBase : Obligations.ModexpReducesTheBase := by
  intro s h
  rw [ne_eq, word_eq_zero_iff] at h
  obtain ⟨t, htexec, hterr, htflag, -, htres⟩ := exec_modexp_result h
  obtain ⟨u, huexec, huerr, huflag, -, hures⟩ :=
    exec_modexp_result (s := { s with opa := BitVec.ofNat 32 (s.opa.toNat % s.opc.toNat) }) h
  refine ⟨t, u, htexec, huexec, BitVec.eq_of_toNat_eq ?sameResult, hterr, huerr, htflag, huflag,
    fun hexp => ?exponentOne⟩
  case sameResult =>
    have hfits : s.opa.toNat % s.opc.toNat < 2 ^ 32 := Nat.lt_of_le_of_lt (Nat.mod_le _ _) s.opa.isLt
    rw [htres, hures, Word.toNat_ofNat_of_lt hfits]
    exact Nat.pow_mod _ _ _
  case exponentOne =>
    rw [htres, hexp]
    exact congrArg (· % s.opc.toNat) (Nat.pow_one _)

/-! ### The RSA round trip (R97) -/

/-- Fermat's little theorem for every base: an exponent that is 1 modulo `p - 1` leaves the base as it is modulo `p`.
The exponent 0, which is 1 modulo 1, has to be left out. -/
theorem pow_modEq_self {p k : Nat} (hp : p.Prime) (hk : 1 ≤ k) (h : k ≡ 1 [MOD p - 1]) (n : Nat) :
    n ^ k ≡ n [MOD p] := by
  have hint := Int.ModEq.pow_eq_pow hp ((Nat.modEq_iff_dvd' hk).1 h.symm) hk Nat.one_pos n
  rw [pow_one] at hint
  exact Int.natCast_modEq_iff.1 (by exact_mod_cast hint)

/-- Two different primes are not both 2, so that 0 is not 1 modulo `(p - 1) * (q - 1)`. -/
theorem one_le_of_modEq_one {p q k : Nat} (hp : p.Prime) (hq : q.Prime) (hne : p ≠ q)
    (h : k ≡ 1 [MOD (p - 1) * (q - 1)]) : 1 ≤ k := by
  by_contra hk
  obtain rfl : k = 0 := by omega
  have hone : (p - 1) * (q - 1) = 1 := Nat.dvd_one.1 ((Nat.modEq_iff_dvd' (Nat.zero_le 1)).1 h)
  obtain ⟨hp1, hq1⟩ := mul_eq_one.1 hone
  have := hp.two_le
  have := hq.two_le
  omega

/-- The law behind RSA: modulo each of the two primes by Fermat, and so modulo their product. -/
theorem pow_modEq_self_mul {p q k : Nat} (hp : p.Prime) (hq : q.Prime) (hne : p ≠ q)
    (h : k ≡ 1 [MOD (p - 1) * (q - 1)]) (n : Nat) : n ^ k ≡ n [MOD p * q] := by
  have hk := one_le_of_modEq_one hp hq hne h
  exact (Nat.modEq_and_modEq_iff_modEq_mul ((Nat.coprime_primes hp hq).2 hne)).1
    ⟨pow_modEq_self hp hk (h.of_mul_right _) n, pow_modEq_self hq hk (h.of_mul_left _) n⟩

/-- Settles O23: the two commands raise the message to the power `e * d` modulo `p * q`. -/
theorem rsaRoundTripReturnsTheMessage : Obligations.RsaRoundTripReturnsTheMessage := by
  intro p q e d message s hp hq hne hN he hd hm hed hopa hopb hopc
  have hmod : s.opc.toNat = p * q := hopc ▸ Word.toNat_ofNat_of_lt hN
  have hN0 : s.opc.toNat ≠ 0 := hmod ▸ Nat.mul_ne_zero hp.ne_zero hq.ne_zero
  obtain ⟨t, htexec, hterr, -, htopc, htres⟩ := exec_modexp_result hN0
  obtain ⟨u, huexec, huerr, -, -, hures⟩ :=
    exec_modexp_result (s := { t with opa := t.res0, opb := BitVec.ofNat 32 d }) (htopc ▸ hN0)
  rw [hmod, hopa, hopb, Word.toNat_ofNat_of_lt hm, Word.toNat_ofNat_of_lt he] at htres
  have hround : u.res0.toNat = message % (p * q) := by
    calc u.res0.toNat
      _ = (message ^ e % (p * q)) ^ d % (p * q) := by
        rw [hures, htres, htopc, hmod, Word.toNat_ofNat_of_lt hd]
      _ = message ^ (e * d) % (p * q) := by rw [← Nat.pow_mod, ← Nat.pow_mul]
      _ = message % (p * q) := pow_modEq_self_mul hp hq hne hed message
  exact ⟨t, u, htexec, huexec, hterr, huerr, hround, fun hlt => hround.trans (Nat.mod_eq_of_lt hlt)⟩

end Sys2Proof.Machine
end

section
/-! PROOFS. FACTOR: the scan's first proper divisor, and its reading as the least prime factor (43_factor.md). -/

namespace Sys2Proof.Machine

variable {W : Nat}

/-! ### The scan -/

/-- The model's root, found digit by digit, is the library's. -/
theorem isqrt_eq_sqrt (n : Nat) : isqrt n = Nat.sqrt n := Nat.eq_sqrt.2 (isqrt_spec n)

theorem factorCompletion_some {n p : Nat} (h : leastProperDivisor n = some p) :
    (factorCompletion n : Completion W) = .ret (Word.ofNat p) (Word.ofNat (n / p)) true := by
  simp [factorCompletion, h]

theorem factorCompletion_none {n : Nat} (h : leastProperDivisor n = none) :
    (factorCompletion n : Completion W) = .ret 0#W 0#W false := by
  simp [factorCompletion, h]

/-- Settles O24: by the two answers of the scan, with what `leastProperDivisor_some` and `leastProperDivisor_none` say
of each. -/
theorem factorAnswersTheFirstProperDivisor : Obligations.FactorAnswersTheFirstProperDivisor := by
  intro s
  rw [← isqrt_eq_sqrt]
  cases h : leastProperDivisor s.opa.toNat with
  | some p =>
    obtain ⟨h2, hle, hdvd, hlt, hleast⟩ := leastProperDivisor_some h
    exact .inl ⟨p, h2, hle, hdvd, hlt, hleast, exec_eq_of_ret (factorCompletion_some h)⟩
  | none => exact .inr ⟨leastProperDivisor_none h, exec_eq_of_ret (factorCompletion_none h)⟩

/-! ### The composite numbers -/

/-- The least composite number is 4 (43_factor.md R102 (d)). -/
theorem composite_iff {n : Nat} : ¬(n = 0 ∨ n = 1 ∨ n.Prime) ↔ 4 ≤ n ∧ ¬n.Prime := by
  constructor
  · simp only [not_or]
    rintro ⟨h0, h1, hp⟩
    have h2 : n ≠ 2 := fun h => hp (h ▸ Nat.prime_two)
    have h3 : n ≠ 3 := fun h => hp (h ▸ Nat.prime_three)
    exact ⟨by omega, hp⟩
  · rintro ⟨h4, hp⟩ (h | h | h)
    · omega
    · omega
    · exact hp h

/-- A composite number is split in order: the least prime factor is at least 2 and at most its cofactor, which is below
the number (R102 (b)). -/
theorem composite_split {n : Nat} (h4 : 4 ≤ n) (hp : ¬n.Prime) :
    n.minFac * (n / n.minFac) = n ∧ 2 ≤ n.minFac ∧ n.minFac ≤ n / n.minFac ∧ n / n.minFac < n := by
  have h2 : 2 ≤ n.minFac := (Nat.minFac_prime (by omega)).two_le
  exact ⟨Nat.mul_div_cancel' (Nat.minFac_dvd n), h2, Nat.minFac_le_div (by omega) hp, Nat.div_lt_self (by omega) h2⟩

/-- ISPRIME's RES0 is 0 exactly for the numbers that are not prime (40_primality.md R71). -/
theorem exec_isprime_res0 (s : State) :
    ∃ u, exec .isprime s = .next u ∧ (u.res0 = 0 ↔ ¬s.opa.toNat.Prime) := by
  refine ⟨_, isprimeIffPrime s, ?_⟩
  by_cases hp : s.opa.toNat.Prime <;> simp [hp]

/-- Settles O25: with the operand not composite every clause is about "not found", with it composite about its split by
`composite_split`; `composite_iff` ties both to ISPRIME's answer. -/
theorem factorSplitsExactlyTheComposites : Obligations.FactorSplitsExactlyTheComposites := by
  intro s
  obtain ⟨u, hu, hres0⟩ := exec_isprime_res0 s
  by_cases hn : s.opa.toNat = 0 ∨ s.opa.toNat = 1 ∨ s.opa.toNat.Prime
  case pos =>
    exact ⟨_, u, exec_eq_of_ret (factorCompletion_not_found hn), hu, rfl, iff_of_true rfl hn, fun _ => ⟨rfl, rfl⟩,
      nofun, iff_of_false nofun fun ⟨h4, h0⟩ => composite_iff.2 ⟨h4, hres0.1 h0⟩ hn⟩
  case neg =>
    obtain ⟨h4, hp⟩ := composite_iff.1 hn
    refine ⟨_, u, exec_eq_of_ret (factorCompletion_composite (by omega) (by omega) hp), hu, rfl,
      iff_of_false nofun hn, nofun, fun _ => ?_, iff_of_true rfl ⟨h4, hres0.2 hp⟩⟩
    rw [Word.toNat_ofNat_of_lt (minFac_lt_two_pow s.opa.isLt (by omega)),
      Word.toNat_ofNat_of_lt (cofactor_lt_two_pow _ s.opa.isLt)]
    exact ⟨rfl, rfl, composite_split h4 hp⟩

end Sys2Proof.Machine
end

section
/-! PROOFS. Faults and the record of a completion (60_exceptions.md): what raises each fault, what a fault completion
leaves behind, how long the record stays, and that no run is stuck. -/

namespace Sys2Proof.Machine

variable {W : Nat}

/-! ### The causes of the faults -/

/-- The faults of the commands (R108): the zero modulus, tested first (R114), and the missing inverse. -/
theorem commandCompletion_eq_raise_iff (i : Instr) (a b m : Nat) (code : FaultCode) :
    (commandCompletion i a b m : Completion W) = .raise code ↔
      (code = .modZero ∧ (i = .modexp ∧ m = 0 ∨ i = .modinv ∧ b = 0)) ∨
        (code = .notInvertible ∧ i = .modinv ∧ b ≠ 0 ∧ Nat.gcd a b ≠ 1) := by
  have hends := commandCompletion_cases (W := W) i a b m
  cases i with
  | isprime | gcd | factor =>
    obtain ⟨r0, r1, flag, hc, -⟩ | ⟨hi, -⟩ | ⟨hi, -⟩ := hends
    · simp [hc]
    · simp at hi
    · simp at hi
  | modinv =>
    by_cases h0 : b = 0
    · rw [commandCompletion, modinvCompletion_zero h0]
      simp [h0, eq_comm]
    by_cases hg : Nat.gcd a b = 1
    · simp [commandCompletion, modinvCompletion_coprime h0 hg, h0, hg]
    · simp [commandCompletion, modinvCompletion_not_coprime h0 hg, h0, hg, eq_comm]
  | modexp =>
    by_cases h0 : m = 0
    · rw [commandCompletion, modexpCompletion_zero h0]
      simp [h0, eq_comm]
    · simp [commandCompletion, modexpCompletion_pos h0, h0]

/-- A word raises a fault when it is no command, with ILLEGAL_CMD, or when its command raises it (R108, R109). -/
theorem completionOf_eq_raise_iff (c a b m : Word W) (code : FaultCode) :
    completionOf c a b m = .raise code ↔
      (code = .illegalCmd ∧ ∀ i, decode c ≠ .command i) ∨
        ∃ i, decode c = .command i ∧ (commandCompletion i a.toNat b.toNat m.toNat : Completion W) = .raise code := by
  cases hd : decode c with
  | command i => simp [completionOf_command hd]
  | illegal why => simp [completionOf_illegal hd, eq_comm]

/-- The words that are no command are those with RSVD not 0, OPCODE 0 or OPCODE from 6 up (30_encoding.md R58). -/
theorem forall_decode_ne_command_iff (c : Word W) :
    (∀ i, decode c ≠ .command i) ↔ c.toNat / 16 ≠ 0 ∨ c.toNat % 16 = 0 ∨ 6 ≤ c.toNat % 16 := by
  refine ⟨fun h => ?_, decode_ne_command_of_illegal⟩
  have other (i : Instr) : c.toNat ≠ i.opcode.toNat := mt (decode_eq_command_iff c i).2 (h i)
  have h1 : c.toNat ≠ 1 := other .isprime
  have h2 : c.toNat ≠ 2 := other .gcd
  have h3 : c.toNat ≠ 3 := other .modinv
  have h4 : c.toNat ≠ 4 := other .modexp
  have h5 : c.toNat ≠ 5 := other .factor
  omega

/-- Settles O14: an illegal word or the command's own fault by `completionOf_eq_raise_iff`; MODINV and MODEXP are the
words 3 and 4. -/
theorem eachFaultHasExactlyItsCause : Obligations.EachFaultHasExactlyItsCause := by
  refine ⟨fun c a b m => ?_, rfl, rfl, rfl⟩
  have modinv : decode c = .command .modinv ↔ c = 3 := decode_eq_command_iff_eq_encode (by decide) c .modinv
  have modexp : decode c = .command .modexp ↔ c = 4 := decode_eq_command_iff_eq_encode (by decide) c .modexp
  simp only [completionOf_eq_raise_iff, commandCompletion_eq_raise_iff, ne_eq, word_eq_zero_iff]
  refine ⟨?illegalCmd, ?modZero, ?notInvertible⟩
  case illegalCmd => simpa using forall_decode_ne_command_iff c
  case modZero => simp [and_or_left, exists_or, modinv, modexp]
  case notInvertible => simp [modinv]

/-! ### The record of a fault -/

/-- Settles O15: the engine's turn is the fault completion, field by field; it leaves `BUSY = 0`, so that the write is
accepted and clears the outcome fields. -/
theorem faultCompletionRecordsTheCode : Obligations.FaultCompletionRecordsTheCode := by
  intro s code w rest hb h hfault
  have hcomplete := stepAt_engine_in_flight hb h
  rw [hfault] at hcomplete
  exact ⟨_, rfl, hcomplete, _, stepAt_write_cmd_idle rfl rfl, rfl, rfl, rfl, rfl⟩

/-- With no command in flight a step, reset and acceptance aside, changes only operands and the world outside (R115;
20_memory.md R45, R47). -/
theorem stepAt_idle {s t : State W} (hs : stepAt s = .next t) (hb : s.busy = false)
    (hr : ∀ rest, s.turns ≠ .reset :: rest) (hc : ∀ v rest, s.turns ≠ .write .cmd v :: rest) :
    ∃ a b m ts vs, t = { s with opa := a, opb := b, opc := m, turns := ts, returned := vs } := by
  obtain ⟨hi, -⟩ | ⟨-, ts, rfl⟩ | ⟨r, ts, rfl⟩ | ⟨r, v, rest, hw, rfl⟩ | ⟨rest, hw, -⟩ := stepAt_cases hs
  · exact absurd (hb.symm.trans hi) Bool.false_ne_true
  · exact ⟨_, _, _, _, _, rfl⟩
  · exact ⟨_, _, _, _, _, rfl⟩
  · obtain ⟨-, he⟩ | ⟨-, he⟩ | ⟨-, he⟩ | ⟨rfl, -⟩ | ⟨-, he⟩ := regWrite_idle (s := { s with turns := rest }) hb r v
    case inr.inr.inr.inl => exact absurd hw (hc v rest)
    all_goals exact ⟨_, _, _, _, _, he⟩
  · exact absurd hw (hr rest)

/-- Settles O35: none of the fields that such a step can change is of the record. -/
theorem outcomeStaysUntilAcceptanceOrReset : Obligations.OutcomeStaysUntilAcceptanceOrReset := by
  intro s t hb hs hr hc
  obtain ⟨a, b, m, ts, vs, rfl⟩ := stepAt_idle hs hb hr hc
  exact ⟨rfl, rfl, rfl, rfl, rfl, rfl, rfl, rfl⟩

/-! ### Nothing is stuck -/

theorem waitTurn_next (polls : Nat) (s : State W) : ∃ t, waitTurn polls s = .next t := by
  cases hb : s.busy with
  | false => exact ⟨_, waitTurn_idle hb polls⟩
  | true =>
    cases polls with
    | zero => exact ⟨_, (waitTurn_complete hb).trans (engineComplete_eq _)⟩
    | succ n => exact ⟨_, waitTurn_poll hb n⟩

/-- Every turn has an effect in every state (R122). -/
theorem takeTurn_next (u : Turn W) (s : State W) : ∃ t, takeTurn u s = .next t := by
  cases u with
  | read | write | reset => exact ⟨_, rfl⟩
  | wait polls => exact waitTurn_next polls s
  | engine => exact ⟨_, engineTurn_eq s⟩

theorem stepAt_next (s : State W) : ∃ t, stepAt s = .next t := by
  cases h : s.turns with
  | nil => exact ⟨_, (stepAt_no_turn h).trans (engineTurn_eq s)⟩
  | cons u rest => exact stepAt_turn h ▸ takeTurn_next u _

/-- A run of any length answers a next state, at every width. -/
theorem run_next (n : Nat) (s : State W) : ∃ t, run n s = .next t := by
  induction n generalizing s with
  | zero => exact ⟨s, rfl⟩
  | succ n ih =>
    obtain ⟨t, h⟩ := stepAt_next s
    exact run_succ h n ▸ ih t

/-- Settles O33: by `run_next`, since each of the turns has an effect. -/
theorem everyRunGoesOn : Obligations.EveryRunGoesOn := run_next

end Sys2Proof.Machine
end

section
/-! PROOFS. Reset and the command in flight (70_reset_and_hazards.md section 1): reset drops the command, no completion
follows, and nothing else drops one. -/

namespace Sys2Proof.Machine

variable {W : Nat}

/-- The architectural state after reset is the same whatever reset met (R124). -/
theorem resetEvent_arch (s : State W) : (resetEvent s).arch = (State.resetAt W).arch := rfl

/-- With no command in flight the engine's turn changes nothing but the turns to come: `Complete` is not enabled
(20_memory.md R43). -/
theorem stepAt_engine_idle {s : State W} (hb : s.busy = false) (rest : List (Turn W)) :
    stepAt { s with turns := .engine :: rest } = .next { s with turns := rest } :=
  (stepAt_engine rfl).trans (engineTurn_idle hb)

/-- Settles O29: reset leaves BUSY clear, so that the engine's turn after it is idle (R125), and
`stepAt_busy_cleared` says that only reset and the completion end a command. -/
theorem resetDropsTheCommandInFlight : Obligations.ResetDropsTheCommandInFlight := by
  refine ⟨fun s rest h => ?reset, fun s t hb hs ht => stepAt_busy_cleared hs hb ht⟩
  case reset =>
    exact ⟨_, stepAt_reset h, resetEvent_arch _, resetEvent_turns _, resetEvent_returned _,
      stepAt_engine_idle (resetEvent_busy _)⟩

end Sys2Proof.Machine
end
